-- ==== Sys2Proof/Word.lean ====
section
/-! DEFINITION. The word and byte types of the core (00_scope.md R11 to R13). -/

namespace Sys2Proof

/-- A 32-bit word: the width of a register of the window, of `H[i]` and of `DIGEST[i]` (R9, R12). `+`, `&&&`, `|||`,
`^^^`, `~~~` and `>>>` of `BitVec` are R12's operations: addition is modulo 2^32, the shift is logical. -/
abbrev Word := BitVec 32

/-- An unsigned 8-bit value (R13). -/
abbrev Byte := BitVec 8

end Sys2Proof
end

