-- ==== Sys2Proof/Syntax.lean ====
section
/-! DEFINITION. The command set of the core: one constructor per row of spec/opcode_table.json (30_encoding.md R65). -/

namespace Sys2Proof

/-- A command (30_encoding.md R65, R69). -/
inductive Instr where
  /-- NOP: no operation (R79). -/
  | nop
  /-- INIT: start a new message (R80). -/
  | init
  /-- UPDATE: append the first `nb` bytes of the operand latched from DATA_IN (R82). `nb` is the NB field (R66), of which
  0 to 4 are an UPDATE. -/
  | update (nb : BitVec 3)
  /-- FINALIZE: compute the digest of the message so far (R84). -/
  | finalize
  deriving DecidableEq, Repr

/-- The operation code of a command, `CMD[3:0]` (R64, R65). -/
def Instr.op : Instr → BitVec 4
  | .nop => 0x0
  | .init => 0x1
  | .update _ => 0x2
  | .finalize => 0x3

/-- The byte count of a command, `CMD[6:4]`: 0 unless it is an UPDATE (R64, R66). -/
def Instr.nb : Instr → BitVec 3
  | .nop => 0
  | .init => 0
  | .update nb => nb
  | .finalize => 0

end Sys2Proof
end

