-- ==== Sys2Proof/Machine/State.lean ====
section
/-! DEFINITION. The architectural state of one core (10_state.md R19), the state after reset (R42, R141), and the inputs that
the outside world still has for the core. -/

namespace Sys2Proof.Machine

/-- The block buffer `BUF` (10_state.md R22): the bytes at the addresses 0 to 63 as address and byte pairs, addresses
strictly rising, no entry equal to `Memory.unlisted` (`Memory.wf` says so). It is the core's only memory (R14, R43). -/
abbrev Memory := List Host.Cell

/-- An issued and not yet performed command (R29): the command decoded from the CMD word (its `op` and `nb` are `cmd.op`
and `cmd.nb`) and the value of DATA_IN latched at that write. -/
structure Pending where
  cmd : Instr
  data : Word
  deriving DecidableEq, Repr

/-- The names of the errors an issue can record (60_exceptions.md R125). -/
inductive ErrName where
  | illegalCmd
  | badLength
  | overrun
  deriving DecidableEq, Repr

/-- The registers of the host's window (R33). -/
inductive Reg where
  | cmd
  | dataIn
  | status
  | totalLo
  | totalHi
  | digest (i : Fin 8)
  /-- Indices 3, 6 and 7 (R39). -/
  | reserved
  deriving DecidableEq, Repr

/-- One atomic turn of an agent or of the environment (R16, R139). -/
inductive Event where
  /-- The host's `RegWrite(idx, v)` (R45, R48). -/
  | write (idx : BitVec 4) (v : Word)
  /-- The host's `RegRead(idx)` (R45, R47). -/
  | read (idx : BitVec 4)
  /-- The core's turn: it performs the pending command (R76). -/
  | perform
  /-- The environment asserts the reset input (R139). -/
  | reset
  deriving DecidableEq, Repr

/-- The state of the machine: the elements of R19, then the two fields of the model's own that hold the outside world. -/
@[ext]
structure State where
  /-- `H[0..7]`, the chaining value (R20). -/
  h : Vector Word 8
  /-- `BUF[0..63]` (R22). -/
  buf : Memory
  /-- `BUFSIZE`, the number of valid bytes in BUF (R23). -/
  bufsize : BitVec 6
  /-- `TOTAL`, the bytes folded into H, modulo 2^64 (R24). -/
  total : BitVec 64
  /-- `DIGEST[0..7]`, the last digest (R26). -/
  digest : Vector Word 8
  /-- `DV`: DIGEST holds a valid digest (R27). -/
  dv : Bool
  /-- `ERR`: an error has been recorded (R28). -/
  err : Bool
  /-- `ERRCODE`: the code of the first error recorded (R28, R125). -/
  errcode : BitVec 3
  /-- `PENDING` (R29). -/
  pending : Option Pending
  /-- `DATA_IN` (R30). -/
  dataIn : Word
  /-- The turns the outside world has fixed, the next one first. DESIGN CHOICE (log entry 1): the model's own field. It is
  the host's and the platform's input and says which agent moves next, so it holds every `BUSY_LATENCY`. -/
  schedule : List Event
  /-- The values the port has returned to the host, the latest first. DESIGN CHOICE (log entry 3): the model's own field; it
  belongs to the host, and nothing of the core reads it. -/
  readLog : List Word
  deriving DecidableEq, Repr

/-- Why the machine stops. No rule of the spec stops the core (R116; 93_implementation_defined.md, section 2): the one reason
below is for a term that no CMD word decodes to. -/
inductive Fault where
  /-- Raised by `execUpdate` alone, on a byte count of 5 to 7: such a word is BAD_LENGTH and never becomes pending (R71,
  R75), so the spec gives it no perform. Safe: no state that meets the invariant `CoreInv` reaches it (log entry 6). -/
  | illFormedUpdate
  deriving DecidableEq, Repr

/-- Why the model gives no meaning. -/
inductive Refusal where
  /-- Raised by an arm of `exec` whose instruction has no meaning yet. Safe: the run ends. No arm of this model raises it. -/
  | notModelled (mnemonic : String)
  deriving DecidableEq, Repr

/-- The machine right after reset (R42, R141). `schedule` and `readLog` are the model's own (log entries 1 and 3): nothing
is placed for the core to do, and nothing has been read. -/
def State.reset : State where
  h := iv
  buf := []
  bufsize := 0
  total := 0
  digest := Vector.replicate 8 0
  dv := false
  err := false
  errcode := 0
  pending := none
  dataIn := 0
  schedule := []
  readLog := []

end Sys2Proof.Machine
end

