-- ==== Sys2Proof/Machine/Flags.lean ====
section
/-! DEFINITION. The flags of the core: BUSY, and the STATUS word that packs BUSY, DV, ERR, ERRCODE and BUFSIZE (10_state.md
R29, R32, R35). -/

namespace Sys2Proof.Machine

/-- `BUSY`: a command is pending (R29). -/
def State.busy (s : State) : Bool := s.pending.isSome

/-- A flag as a word: 1 or 0. -/
def flagWord (b : Bool) : Word := (BitVec.ofBool b).zeroExtend 32

/-- `STATUS = BUSY | DV<<1 | ERR<<2 | ERRCODE<<4 | BUFSIZE<<8` (R35). -/
def State.status (s : State) : Word :=
  flagWord s.busy ||| (flagWord s.dv <<< 1) ||| (flagWord s.err <<< 2) ||| (s.errcode.zeroExtend 32 <<< 4) |||
    (s.bufsize.zeroExtend 32 <<< 8)

/-- The code an error's name stands for in ERRCODE (60_exceptions.md R125). -/
def ErrName.code : ErrName → BitVec 3
  | .illegalCmd => 1
  | .badLength => 2
  | .overrun => 3

end Sys2Proof.Machine
end

