-- ==== Sys2Proof/Machine/Operands.lean ====
section
/-! DEFINITION. Operand forms and byte orders: the DATA_IN lanes (30_encoding.md R68), big-endian packing (00_scope.md R13),
the right rotation (R12) and the register window's indices (10_state.md R33). -/

namespace Sys2Proof.Machine

/-- `ROTR(x, n)` for 0 < n < 32 (R12). -/
def rotr (x : Word) (n : Nat) : Word := (x >>> n) ||| (x <<< (32 - n))

/-- `be32`: four bytes, the first the most significant (R13). -/
def be32 (b0 b1 b2 b3 : Byte) : Word :=
  (b0.zeroExtend 32 <<< 24) ||| (b1.zeroExtend 32 <<< 16) ||| (b2.zeroExtend 32 <<< 8) ||| b3.zeroExtend 32

/-- `bytes_be32`: a word as four bytes, the most significant first (R13). These are also the DATA_IN lanes in message order
(R50, R68). -/
def bytesBe32 (w : Word) : List Byte :=
  [w.extractLsb' 24 8, w.extractLsb' 16 8, w.extractLsb' 8 8, w.extractLsb' 0 8]

/-- `bytes_be64`: a 64-bit value as eight bytes, the most significant first (R13). -/
def bytesBe64 (v : BitVec 64) : List Byte :=
  [v.extractLsb' 56 8, v.extractLsb' 48 8, v.extractLsb' 40 8, v.extractLsb' 32 8,
   v.extractLsb' 24 8, v.extractLsb' 16 8, v.extractLsb' 8 8, v.extractLsb' 0 8]

/-- The message bytes an UPDATE of `nb` bytes takes from its operand: `lane(data, 0) .. lane(data, nb - 1)` (R68). -/
def lanes (nb : BitVec 3) (data : Word) : List Byte := (bytesBe32 data).take nb.toNat

/-- The operand of the command being performed: the DATA_IN value latched when it was issued (R75, R76). Where nothing is
pending the core has no step and the spec names no operand; the value an issue would latch now stands there. DESIGN CHOICE
(log entry 5): the machine never performs a command that is not pending. -/
def State.operand (s : State) : Word :=
  match s.pending with
  | some p => p.data
  | none => s.dataIn

/-- The register at a word index of the window (R33). -/
def Reg.ofIndex (idx : BitVec 4) : Reg :=
  match idx.toNat with
  | 0 => .cmd
  | 1 => .dataIn
  | 2 => .status
  | 3 => .reserved
  | 4 => .totalLo
  | 5 => .totalHi
  | 6 => .reserved
  | 7 => .reserved
  | n + 8 => .digest (Fin.ofNat 8 n)

end Sys2Proof.Machine
end

