-- ==== Sys2Proof/Machine/Ops.lean ====
section
/-! DEFINITION. The shared operations: reading and writing the block buffer (00_scope.md R14, 20_memory.md R46), recording
an error and clearing it (60_exceptions.md R126, R131), latching a command and retiring it (40_stream_commands.md R75, R76),
and reset (70_reset_and_hazards.md R141). -/

namespace Sys2Proof.Machine

/-- What a byte of BUF that no entry lists reads as: 0x00, the reset contents of BUF (R42, R141).
DESIGN CHOICE (log entry 8): the list's form. -/
def Memory.unlisted : Byte := 0x00

/-- The canonical form of BUF: addresses strictly rising, all of them BUF's (0 to 63, R46), no entry equal to what an
unlisted address reads as. -/
abbrev Memory.wf (m : Memory) : Prop :=
  m.Pairwise (fun c d => c.1 < d.1) ∧ ∀ c ∈ m, c.1 < 64 ∧ c.2 ≠ Memory.unlisted

/-- `MemRead(a, 1)` (R14). -/
def Memory.read : Memory → Nat → Byte
  | [], _ => Memory.unlisted
  | (k, v) :: m, a => if k = a then v else Memory.read m a

/-- `MemWrite(a, 1, b)` (R14), keeping the canonical form. -/
def Memory.write : Memory → Nat → Byte → Memory
  | [], a, b => if b = Memory.unlisted then [] else [(a, b)]
  | (k, v) :: m, a, b =>
    if k < a then (k, v) :: Memory.write m a b
    else if k = a then (if b = Memory.unlisted then m else (a, b) :: m)
    else (if b = Memory.unlisted then (k, v) :: m else (a, b) :: (k, v) :: m)

/-- `MemRead(a, n)`: the bytes `BUF[a..a+n)` (R14). Every use has `a + n ≤ 64` (R46). -/
def Memory.readBytes (m : Memory) (a n : Nat) : List Byte := (List.range n).map fun i => m.read (a + i)

/-- `MemWrite(a, n, B)` for `n = |B|` (R14). Every use has `a + n ≤ 64` (R46). -/
def Memory.writeBytes : Memory → Nat → List Byte → Memory
  | m, _, [] => m
  | m, a, b :: bs => Memory.writeBytes (m.write a b) (a + 1) bs

/-- `raise ERR_<name>` (R126): the one way an error is recorded. The first error's code stays (R124); nothing else is
written, PENDING not either, and control goes nowhere (R117). -/
def recordError (e : ErrName) (s : State) : State :=
  { s with errcode := if s.err then s.errcode else e.code, err := true, dv := false }

/-- The clearing of the error record when an INIT is issued (R75, R131): the one way out of an error but for reset. -/
def clearErrors (s : State) : State := { s with err := false, errcode := 0, dv := false }

/-- The issue of a command while none is pending (R75): INIT clears the error record, and the command and the value of
DATA_IN are latched. -/
def accept (i : Instr) (s : State) : State :=
  match i with
  | .nop => { s with pending := some ⟨.nop, s.dataIn⟩ }
  | .init => { clearErrors s with pending := some ⟨.init, s.dataIn⟩ }
  | .update nb => { s with pending := some ⟨.update nb, s.dataIn⟩ }
  | .finalize => { s with pending := some ⟨.finalize, s.dataIn⟩ }

/-- The end of every perform step (R76): `PENDING <- none`, so BUSY becomes 0. -/
def retire (s : State) : State := { s with pending := none }

/-- The reset step (R141): every element of the core takes its reset value, and a pending command is discarded (R140). What
the outside world still has for the core, and what the host has read, are not the core's and stay (log entry 4). -/
def resetCore (s : State) : State := { State.reset with schedule := s.schedule, readLog := s.readLog }

end Sys2Proof.Machine
end

