-- ==== Sys2Proof/Machine/Compress.lean ====
section
/-! DEFINITION. The compression function (41_compression.md R92 to R103). Every `+` is modulo 2^32 (R102). PRESUMED (log entry 10): the
spec marks the functions and equations as general knowledge. -/

namespace Sys2Proof.Machine

/-- Choose (R94). -/
def ch (x y z : Word) : Word := (x &&& y) ^^^ (~~~x &&& z)

/-- Majority (R95). -/
def maj (x y z : Word) : Word := (x &&& y) ^^^ (x &&& z) ^^^ (y &&& z)

/-- Big sigma 0 (R96). -/
def bigSigma0 (x : Word) : Word := rotr x 2 ^^^ rotr x 13 ^^^ rotr x 22

/-- Big sigma 1 (R97). -/
def bigSigma1 (x : Word) : Word := rotr x 6 ^^^ rotr x 11 ^^^ rotr x 25

/-- Small sigma 0 (R98): the third term is a shift. -/
def smallSigma0 (x : Word) : Word := rotr x 7 ^^^ rotr x 18 ^^^ (x >>> 3)

/-- Small sigma 1 (R99): the third term is a shift. -/
def smallSigma1 (x : Word) : Word := rotr x 17 ^^^ rotr x 19 ^^^ (x >>> 10)

/-- The words of a block, big-endian: the first loop of the schedule (R100, R51). -/
def blockWords : List Byte → List Word
  | b0 :: b1 :: b2 :: b3 :: rest => be32 b0 b1 b2 b3 :: blockWords rest
  | _ => []

/-- The next word of a schedule of which `w` holds the words `W[0]` to `W[t-1]`, t = `w.length`: the right side of R100's
second loop. -/
def nextWord (w : List Word) : Word :=
  smallSigma1 (w.getD (w.length - 2) 0) + w.getD (w.length - 7) 0 + smallSigma0 (w.getD (w.length - 15) 0) +
    w.getD (w.length - 16) 0

/-- `n` more words of the schedule (R100). -/
def extendSchedule : Nat → List Word → List Word
  | 0, w => w
  | n + 1, w => extendSchedule n (w ++ [nextWord w])

/-- The message schedule `W[0..63]` of a block (R100). -/
def messageSchedule (blk : List Byte) : List Word := extendSchedule 48 (blockWords blk)

/-- The working variables of one compression (R40). -/
structure Work where
  a : Word
  b : Word
  c : Word
  d : Word
  e : Word
  f : Word
  g : Word
  h : Word
  deriving DecidableEq, Repr

/-- The working variables at the start of a compression (R101). -/
def startWork (h : Vector Word 8) : Work := ⟨h[0], h[1], h[2], h[3], h[4], h[5], h[6], h[7]⟩

/-- `T1` of a round with round constant `k` and schedule word `w` (R101). -/
def temp1 (v : Work) (k w : Word) : Word := v.h + bigSigma1 v.e + ch v.e v.f v.g + k + w

/-- `T2` of a round (R101). -/
def temp2 (v : Work) : Word := bigSigma0 v.a + maj v.a v.b v.c

/-- One round (R101): every right side uses the values of the start of the round. -/
def hashRound (v : Work) (kw : Word × Word) : Work :=
  { a := temp1 v kw.1 kw.2 + temp2 v, b := v.a, c := v.b, d := v.c
    e := v.d + temp1 v kw.1 kw.2, f := v.e, g := v.f, h := v.g }

/-- The 64 rounds, each with its `K[t]` and `W[t]` (R101). -/
def rounds (w : List Word) (v : Work) : Work := (roundK.zip w).foldl hashRound v

/-- The final additions of the working variables into the register file (R101, R102). -/
def addWork (h : Vector Word 8) (v : Work) : Vector Word 8 :=
  #v[h[0] + v.a, h[1] + v.b, h[2] + v.c, h[3] + v.d, h[4] + v.e, h[5] + v.f, h[6] + v.g, h[7] + v.h]

/-- `compress(H, BLK)` (R101). -/
def compress (h : Vector Word 8) (blk : List Byte) : Vector Word 8 :=
  addWork h (rounds (messageSchedule blk) (startWork h))

end Sys2Proof.Machine
end

