-- ==== Sys2Proof/Machine/Padding.lean ====
section
/-! DEFINITION. Padding and the digest function (42_padding_digest.md R104 to R114). -/

namespace Sys2Proof.Machine

/-- The zero-fill count `z = (55 - n) mod 64` (R105, R106). 55 - n is taken in the integers there; adding 64 and reducing n
first gives the same remainder in the naturals. DEDUCED (log entry 9). -/
def zeroCount (n : Nat) : Nat := (55 + 64 - n % 64) % 64

/-- `pad(B, LEN)` (R105): the buffered bytes, 0x80, the zeros, the big-endian length field. -/
def pad (B : List Byte) (len : BitVec 64) : List Byte :=
  B ++ [0x80] ++ List.replicate (zeroCount B.length) 0x00 ++ bytesBe64 len

/-- The length field `LEN = (8 * L) mod 2^64` of a message of `L` bytes (R104, R85). -/
def lengthField (L : Nat) : BitVec 64 := BitVec.ofNat 64 (8 * L)

/-- `sha256_final(H, B, L)` (R110), on a working copy: one padded block, or two when the tail has 128 bytes (R107, R108). -/
def sha256Final (h : Vector Word 8) (B : List Byte) (L : Nat) : Vector Word 8 :=
  let T := pad B (lengthField L)
  let hc := compress h (T.take 64)
  if T.length = 128 then compress hc (T.drop 64) else hc

/-- The digest as a byte string: each register as four bytes, the most significant first (R113, R53). -/
def digestBytes (d : Vector Word 8) : List Byte := d.toList.flatMap bytesBe32

end Sys2Proof.Machine
end

