-- ==== Sys2Proof/Machine/Stream.lean ====
section
/-! DEFINITION. The meanings of the streaming commands: the perform step of each (40_stream_commands.md R79, R80, R82,
R84). A perform reads the operand latched when the command was issued, raises no error (R78), and ends with the command
retired (R76). The issue is in Machine/Port.lean. -/

namespace Sys2Proof.Machine

/-- NOP (R79): nothing, whether ERR is 0 or 1; the command is retired. -/
def execNop (s : State) : Host.Outcome State Fault Refusal := .next (retire s)

/-- INIT (R80): start a new message. ERR, ERRCODE and DV were cleared when it was issued (R75) and are not written. -/
def execInit (s : State) : Host.Outcome State Fault Refusal :=
  .next (retire
    { s with
      h := iv
      buf := s.buf.writeBytes 0 (List.replicate 64 0x00)
      bufsize := 0
      total := 0
      digest := Vector.replicate 8 0 })

/-- One turn of UPDATE's loop (R82): append a byte at index BUFSIZE, and compress the block when that was its 64th byte. -/
def appendByte (s : State) (b : Byte) : State :=
  let buf := s.buf.write s.bufsize.toNat b
  if s.bufsize.toNat + 1 = 64 then
    { s with buf := buf, h := compress s.h (buf.readBytes 0 64), bufsize := 0, total := s.total + 64 }
  else
    { s with buf := buf, bufsize := s.bufsize + 1 }

/-- UPDATE (R82): append the first `nb` lanes of the latched operand to the message; with ERR = 1 no effect (R28, R121). A
byte count of 5 to 7 is no UPDATE (R71) and stops under its own name. -/
def execUpdate (nb : BitVec 3) (s : State) : Host.Outcome State Fault Refusal :=
  if nb.toNat ≤ 4 then
    if s.err then .next (retire s)
    else .next (retire ((lanes nb s.operand).foldl appendByte s))
  else .fault .illFormedUpdate

/-- FINALIZE (R84): the digest of the message so far, computed on a working copy (R111); with ERR = 1 no effect (R28,
R121). The length L = TOTAL + BUFSIZE is computed without truncation (R25). -/
def execFinalize (s : State) : Host.Outcome State Fault Refusal :=
  if s.err then .next (retire s)
  else
    .next (retire
      { s with
        digest := sha256Final s.h (s.buf.readBytes 0 s.bufsize.toNat) (s.total.toNat + s.bufsize.toNat)
        dv := true })

end Sys2Proof.Machine
end

