-- ==== Sys2Proof/Machine/Dispatch.lean ====
section
/-! DEFINITION. The dispatch of a command to its meaning (40_stream_commands.md R76). -/

namespace Sys2Proof.Machine

/-- The perform step of a command (R76): one arm per row of spec/opcode_table.json. -/
def exec (i : Instr) (s : State) : Host.Outcome State Fault Refusal :=
  match i with
  | .nop => Sys2Proof.Machine.execNop s
  | .init => Sys2Proof.Machine.execInit s
  | .update nb => Sys2Proof.Machine.execUpdate nb s
  | .finalize => Sys2Proof.Machine.execFinalize s

end Sys2Proof.Machine
end

