-- ==== Sys2Proof/Config.lean ====
section
/-! DEFINITION. The platform's open parameters (92_eei_decisions.md, OPEN parameters). `BUSY_LATENCY` is not here: it is the
number of host turns before the core's turn in `State.schedule` (log entry 1). `BUS_PROTOCOL` is below the transactions the
model is stated over (log entry 12). -/

namespace Sys2Proof.Config

/-- How many free 64-byte slots of the host's address map lie below the register window of core `k`, above the window of core
`k - 1` where there is one: a platform choice (R44), so it has no body and nothing can be proved of its value. DESIGN CHOICE
(log entry 13): its type. -/
opaque windowGap : Nat → Nat

/-- Which 64-byte slot of the host's address map holds the register window of core `k`; each core has its own (60_exceptions.md
R136). DESIGN CHOICE (log entry 18): the cores are numbered in the order of their windows. -/
def windowSlot : Nat → Nat
  | 0 => windowGap 0
  | k + 1 => windowSlot k + 1 + windowGap (k + 1)

/-- `BASE` of core `k`, the host byte address of its register window, aligned to 64 bytes (R44). -/
def base (k : Nat) : Nat := 64 * windowSlot k

end Sys2Proof.Config
end

