-- ==== Sys2Proof/WellFormed.lean ====
section
/-! DEFINITION. Which terms of `Instr` are commands of the core (30_encoding.md R66). -/

namespace Sys2Proof

/-- A command is well formed when its byte count is one the core performs: an UPDATE takes 0 to 4 bytes, and NB 5 to 7 is no
UPDATE at all (R66, R71). The other commands have no operand field. -/
def Instr.wf : Instr → Bool
  | .nop => true
  | .init => true
  | .update nb => decide (nb.toNat ≤ 4)
  | .finalize => true

end Sys2Proof
end

