-- ==== Sys2Proof/Decode.lean ====
section
/-! DEFINITION. Decoding of the 32-bit CMD word (30_encoding.md R64, R69), total, with its two rejections by name, and the
encoder. -/

namespace Sys2Proof

/-- What a CMD word stands for (R69). -/
inductive Decoded where
  /-- A command of the core. -/
  | cmd (i : Instr)
  /-- A reserved encoding: issuing it records ILLEGAL_CMD (R70). -/
  | illegal
  /-- UPDATE with NB 5 to 7: issuing it records BAD_LENGTH (R71). -/
  | badLength
  deriving DecidableEq, Repr

/-- The OP field `CMD[3:0]` (R64). -/
def opField (w : Word) : BitVec 4 := w.extractLsb' 0 4

/-- The NB field `CMD[6:4]` (R64). -/
def nbField (w : Word) : BitVec 3 := w.extractLsb' 4 3

/-- The reserved field `CMD[31:7]` (R64, R67). -/
def rsvField (w : Word) : BitVec 25 := w.extractLsb' 7 25

/-- The decode function (R69), its cases in the rule's order: a nonzero RSV first, then UPDATE by its NB, then the commands
that need NB = 0. -/
def decode (w : Word) : Decoded :=
  if rsvField w ≠ 0 then .illegal
  else if opField w = 0x2 then
    if (nbField w).toNat ≤ 4 then .cmd (.update (nbField w)) else .badLength
  else if nbField w ≠ 0 then .illegal
  else if opField w = 0x0 then .cmd .nop
  else if opField w = 0x1 then .cmd .init
  else if opField w = 0x3 then .cmd .finalize
  else .illegal

/-- The CMD word of a command: OP in bits 3:0, NB in bits 6:4, RSV zero (R64 to R67). -/
def encode (i : Instr) : Word := i.op.zeroExtend 32 ||| (i.nb.zeroExtend 32 <<< 4)

/-- The command the decoder reads from the `nbits` low bits of `w`, numbered as spec/opcode_table.json numbers them. A CMD
word is one 32-bit value at the port (R63), so there is no byte order to lay it out in; a number that needs more than 32
bits is no CMD word. DESIGN CHOICE (log entry 16). -/
def decodeTableWord (nbits w : Nat) : Option Instr :=
  if w % 2 ^ nbits < 2 ^ 32 then
    match decode (BitVec.ofNat 32 (w % 2 ^ nbits)) with
    | .cmd i => some i
    | .illegal => none
    | .badLength => none
  else none

/-- The `match` column of a command's row in spec/opcode_table.json. -/
def Instr.tableMatch : Instr → Word
  | .nop => 0x00000000
  | .init => 0x00000001
  | .update _ => 0x00000002
  | .finalize => 0x00000003

/-- The `mask` column of a command's row in spec/opcode_table.json (UPDATE's leaves out NB, bits 6:4). -/
def Instr.tableMask : Instr → Word
  | .nop => 0xFFFFFFFF
  | .init => 0xFFFFFFFF
  | .update _ => 0xFFFFFF8F
  | .finalize => 0xFFFFFFFF

end Sys2Proof
end

