-- ==== Sys2Proof/Machine/Port.lean ====
section
/-! DEFINITION. The register port (20_memory.md R44 to R48): where the window stands, what a read returns, what a write does,
and the issue of a command by a write to CMD (40_stream_commands.md R75). -/

namespace Sys2Proof.Machine

/-- The host byte address of the register at word index `idx` of core `k`'s window (R44, 60_exceptions.md R136). -/
def hostAddress (k : Nat) (idx : BitVec 4) : Nat := Config.base k + 4 * idx.toNat

/-- The word index a host byte address stands for in core `k`'s window: none outside the window and none for an address that is
not a word's, which cannot be expressed at the port (R45). DESIGN CHOICE (log entry 14). -/
def indexOfHostAddress (k a : Nat) : Option (BitVec 4) :=
  if Config.base k ≤ a ∧ a < Config.base k + 64 ∧ (a - Config.base k) % 4 = 0 then
    some (BitVec.ofNat 4 ((a - Config.base k) / 4))
  else none

/-- What a read of a register returns (R47). -/
def readReg (s : State) : Reg → Word
  | .cmd => 0
  | .dataIn => s.dataIn
  | .status => s.status
  | .totalLo => s.total.extractLsb' 0 32
  | .totalHi => s.total.extractLsb' 32 32
  | .digest i => s.digest[i]
  | .reserved => 0

/-- The value `RegRead(idx)` returns; it changes nothing (R47). -/
def regRead (idx : BitVec 4) (s : State) : Word := readReg s (Reg.ofIndex idx)

/-- Issue (R75): any word while a command is pending is an OVERRUN and is not decoded (R129, R130); otherwise an illegal
word and a bad length record their errors, and a command is accepted. -/
def issue (w : Word) (s : State) : State :=
  if s.busy then recordError .overrun s
  else
    match decode w with
    | .illegal => recordError .illegalCmd s
    | .badLength => recordError .badLength s
    | .cmd i => accept i s

/-- What a write to a register does (R48). -/
def writeReg (v : Word) (s : State) : Reg → State
  | .cmd => issue v s
  | .dataIn => { s with dataIn := v }
  | .status => s
  | .totalLo => s
  | .totalHi => s
  | .digest _ => s
  | .reserved => s

/-- The effect of `RegWrite(idx, v)` (R48). -/
def regWrite (idx : BitVec 4) (v : Word) (s : State) : State := writeReg v s (Reg.ofIndex idx)

end Sys2Proof.Machine
end

