-- ==== Sys2Proof/Machine/Turn.lean ====
section
/-! DEFINITION. The turns of the agents (10_state.md R16): the host's access, the core's perform, the environment's reset;
and the placing of a command for the core's next turn. -/

namespace Sys2Proof.Machine

/-- The core's turn (R76): it performs the pending command. With nothing pending the core has no step, and its state stays
as it is (R138). DESIGN CHOICE (log entry 2): such a turn leaves the state unchanged. -/
def coreTurn (s : State) : Host.Outcome State Fault Refusal :=
  match s.pending with
  | some p => exec p.cmd s
  | none => .next s

/-- The turn an event stands for. -/
def takeTurn (ev : Event) (s : State) : Host.Outcome State Fault Refusal :=
  match ev with
  | .write idx v => .next (regWrite idx v s)
  | .read idx => .next { s with readLog := regRead idx s :: s.readLog }
  | .perform => coreTurn s
  | .reset => .next (resetCore s)

/-- The next turn: the first the outside world has fixed; where it has fixed none, the core moves, so that a pending command
is performed (R77). DESIGN CHOICE (log entry 2). -/
def State.nextTurn (s : State) : Event := s.schedule.headD .perform

/-- The state with the next turn taken off the schedule. -/
def State.dropTurn (s : State) : State := { s with schedule := s.schedule.tail }

/-- `s` with a command word placed for the very next step: a word that decodes to a command stands issued, as `accept` leaves
it, and the core moves next; any other word stands as the host's next write to CMD (log entry 7). -/
def placeCommand (nbits w : Nat) (s : State) : State :=
  match decodeTableWord nbits w with
  | some i => { accept i s with schedule := [] }
  | none => { s with pending := none, schedule := [.write 0 (BitVec.ofNat 32 (w % 2 ^ nbits))] }

end Sys2Proof.Machine
end

