-- ==== Sys2Proof/Machine/Step.lean ====
section
/-! DEFINITION. One step of the machine: the next turn (10_state.md R16, 20_memory.md R56 and R57). -/

namespace Sys2Proof.Machine

/-- One step: the next turn is taken off the schedule and taken. Each is atomic (R16, R57). -/
def step (s : State) : Host.Outcome State Fault Refusal := takeTurn s.nextTurn s.dropTurn

/-- `s` with the command word `w` (its low `nbits` bits) placed so that the very next step runs it (log entry 7). -/
def State.withFetchWord (s : State) (nbits w : Nat) : State := placeCommand nbits w s

end Sys2Proof.Machine
end

