-- ==== Sys2Proof/Machine/Asm.lean ====
section
/-! DEFINITION. The host's assembler forms and pseudo-instructions (30_encoding.md R73, R74), as the turns they put on the
schedule. DESIGN CHOICE (log entry 17). -/

namespace Sys2Proof.Machine

/-- One line of a host program (R73). -/
inductive Line where
  | nop
  | init
  | update (n : Fin 5)
  | finalize
  | cmd (w : Word)
  | wr (r : Reg) (v : Word)
  | rd (r : Reg)
  deriving DecidableEq, Repr

/-- The word index a register's name stands for (R33). The reserved indices 3, 6 and 7 have no name in R33; the model takes 3
for the constructor they share. DESIGN CHOICE (log entry 11). -/
def Reg.index : Reg → BitVec 4
  | .cmd => 0
  | .dataIn => 1
  | .status => 2
  | .reserved => 3
  | .totalLo => 4
  | .totalHi => 5
  | .digest i => BitVec.ofNat 4 (8 + i.val)

/-- The port access of a line (R73). -/
def Line.event : Line → Event
  | .nop => .write 0 0x00000000
  | .init => .write 0 0x00000001
  | .update n => .write 0 (0x00000002 ||| (BitVec.ofNat 32 n.val <<< 4))
  | .finalize => .write 0 0x00000003
  | .cmd w => .write 0 w
  | .wr r v => .write r.index v
  | .rd r => .read r.index

/-- `wait` (R74) as it runs when the core performs after `polls` reads of STATUS: those reads, the core's turn, and the read
that finds BUSY = 0. `polls` is this command's `BUSY_LATENCY` (R77). -/
def waitTurns (polls : Nat) : List Event :=
  List.replicate polls (Line.event (.rd .status)) ++ [.perform, Line.event (.rd .status)]

/-- `put N, v` (R74). -/
def putTurns (polls : Nat) (n : Fin 5) (v : Word) : List Event :=
  [Line.event (.wr .dataIn v), Line.event (.update n)] ++ waitTurns polls

/-- `feed "s"` (R74), the `k`-th command of it and those after it taking the latencies `lat k`, `lat (k + 1)`, … -/
def feedTurns (lat : Nat → Nat) (k : Nat) : List Byte → List Event
  | [] => []
  | [a] => putTurns (lat k) 1 (be32 a 0 0 0)
  | [a, b] => putTurns (lat k) 2 (be32 a b 0 0)
  | [a, b, c] => putTurns (lat k) 3 (be32 a b c 0)
  | a :: b :: c :: d :: rest => putTurns (lat k) 4 (be32 a b c d) ++ feedTurns lat (k + 1) rest

/-- The reads of DIGEST0 to DIGEST7, in order. -/
def digestReads : List Event := (List.finRange 8).map fun i => Line.event (.rd (.digest i))

/-- `digest` (R74). -/
def digestTurns (polls : Nat) : List Event := [Line.event .finalize] ++ waitTurns polls ++ digestReads

/-- `hash "s"` (R74): INIT and FINALIZE take the latencies `initPolls` and `finalPolls`, the UPDATEs `lat 0`, `lat 1`, … -/
def hashTurns (initPolls finalPolls : Nat) (lat : Nat → Nat) (M : List Byte) : List Event :=
  [Line.event .init] ++ waitTurns initPolls ++ feedTurns lat 0 M ++ digestTurns finalPolls

end Sys2Proof.Machine
end

