-- ==== Sys2Proof/Machine/Platform.lean ====
section
/-! DEFINITION. A platform of several cores (10_state.md R18, 60_exceptions.md R136): each has its own state and its own register
window, a step of one is no step of another, and a host address selects the core whose window holds it. DESIGN CHOICE (log
entry 15): the platform is the list of its cores' states, each numbered by its place. -/

namespace Sys2Proof.Machine

/-- A step of the core numbered `k` alone, `turn` saying what that core's step answers; there is no such core past the end of
the list, and then nothing moves. -/
def onCore (k : Nat) (turn : State → Host.Outcome State Fault Refusal) (cores : List State) :
    Host.Outcome (List State) Fault Refusal :=
  match cores[k]? with
  | none => .next cores
  | some s =>
    match turn s with
    | .next t => .next (cores.set k t)
    | .fault f => .fault f
    | .refused r => .refused r

/-- A step of the core numbered `k` of a platform. -/
def stepCore (k : Nat) (cores : List State) : Host.Outcome (List State) Fault Refusal := onCore k step cores

/-- Which of the cores numbered below `n` a host byte address reaches, and at which word index (R44, R136): none where it is
the address of no register of theirs. -/
def selectRegister (n a : Nat) : Option (Nat × BitVec 4) :=
  match n with
  | 0 => none
  | k + 1 =>
    match indexOfHostAddress k a with
    | some idx => some (k, idx)
    | none => selectRegister k a

/-- A 32-bit access of a host, by host byte address (R44, R45). -/
inductive BusAccess where
  | write (a : Nat) (v : Word)
  | read (a : Nat)
  deriving DecidableEq, Repr

/-- The host byte address of an access. -/
def BusAccess.address : BusAccess → Nat
  | .write a _ => a
  | .read a => a

/-- The host's turn that an access is to the core it reaches, at word index `idx`. -/
def BusAccess.event (idx : BitVec 4) : BusAccess → Event
  | .write _ v => .write idx v
  | .read _ => .read idx

/-- A host's access on a platform: the core whose window holds the address takes the host's turn, ahead of the turns of its
`schedule`. An access that reaches no register of a core is none of the cores' (R45; log entry 14), so it has no outcome
here. -/
def busAccess (acc : BusAccess) (cores : List State) : Option (Host.Outcome (List State) Fault Refusal) :=
  match selectRegister cores.length acc.address with
  | some (k, idx) => some (onCore k (takeTurn (acc.event idx)) cores)
  | none => none

end Sys2Proof.Machine
end

