-- ==== Sys2Proof/Safety.lean ====
section
/-! DEFINITION. What claims about runs are stated in: the invariant of the state, the message a state stands for, the SHA-256
digest of a message, and the observations of the host. -/

namespace Sys2Proof.Machine

/-- The invariant of the machine between any two steps. -/
structure CoreInv (s : State) : Prop where
  /-- BUF is in its canonical form, at BUF's addresses only (R46). -/
  buf_wf : Memory.wf s.buf
  /-- `TOTAL mod 64 = 0` (R24). -/
  total_aligned : s.total.toNat % 64 = 0
  /-- The reserved codes 4 to 7 are never recorded (R125). -/
  errcode_defined : s.errcode.toNat ≤ 3
  /-- ERRCODE is NONE exactly while no error is recorded (R28, R125). -/
  errcode_none : s.err = false ↔ s.errcode = 0
  /-- DV stays 0 while ERR is 1 (R121, R126). -/
  poisoned_not_valid : s.err = true → s.dv = false
  /-- Only a command of the core is ever pending (R75, R119). -/
  pending_wf : ∀ p, s.pending = some p → p.cmd.wf = true
  /-- DV was cleared when a pending INIT was issued (R75), and no FINALIZE is performed before it (R58). -/
  init_not_valid : ∀ p, s.pending = some p → p.cmd = .init → s.dv = false
  /-- DIGEST is 0 where DV and ERR are 0, but for a pending INIT that has yet to clear it (R38). -/
  no_digest : s.dv = false → s.err = false → (∀ p, s.pending = some p → p.cmd ≠ .init) →
    s.digest = Vector.replicate 8 0

/-- `compress` chained over the first `k` blocks of `T` (R21, R110). -/
def chain : Nat → Vector Word 8 → List Byte → Vector Word 8
  | 0, h, _ => h
  | k + 1, h, T => chain k (compress h (T.take 64)) (T.drop 64)

/-- SHA-256 of a message (42_padding_digest.md R115), all at once: pad the whole message, then compress its blocks in order
from the initial hash value. The length field wraps as R85 says, so for a message of 2^61 bytes or more this is the core's
digest and not FIPS 180-4's (log entry 10). -/
def sha256 (M : List Byte) : Vector Word 8 :=
  let T := pad M (lengthField M.length)
  chain (T.length / 64) iv T

/-- `s` stands for the message `M`: H, BUF, BUFSIZE and TOTAL are as R21 to R24 say for it. -/
structure Tracks (M : List Byte) (s : State) : Prop where
  /-- H is the chaining value of the whole blocks of `M` (R21). -/
  chaining : s.h = chain (M.length / 64) iv M
  /-- BUF holds the bytes after them (R22). -/
  tail : s.buf.readBytes 0 s.bufsize.toNat = M.drop (64 * (M.length / 64))
  /-- BUFSIZE counts those (R23). -/
  count : s.bufsize.toNat = M.length % 64
  /-- TOTAL counts the bytes folded into H, modulo 2^64 (R24). -/
  total : s.total = BitVec.ofNat 64 (64 * (M.length / 64))

/-- The message bytes a performed command appends (R68, R82). -/
def Pending.payload (p : Pending) : List Byte :=
  match p.cmd with
  | .nop => []
  | .init => []
  | .update nb => lanes nb p.data
  | .finalize => []

/-- The message `s` stands for after its next step, when it stands for `M` before: reset and a performed INIT start the empty
message, a performed UPDATE appends its bytes unless the computation is poisoned (R15, R28, R80, R82). -/
def messageAfter (s : State) (M : List Byte) : List Byte :=
  match s.nextTurn with
  | .write _ _ => M
  | .read _ => M
  | .reset => []
  | .perform =>
    match s.pending with
    | none => M
    | some p =>
      match p.cmd with
      | .init => []
      | .nop => M
      | .finalize => M
      | .update _ => if s.err then M else M ++ p.payload

/-- Two states differ at most in the stale bytes `BUF[BUFSIZE..64)` (R22, R109). -/
structure SameButStale (s t : State) : Prop where
  rest : { s with buf := t.buf } = t
  live : ∀ a, a < s.bufsize.toNat → s.buf.read a = t.buf.read a

/-- The commands that R86 lets a delivery hold: NOPs, and UPDATEs of 0 to 4 bytes. -/
def Pending.delivers (p : Pending) : Bool :=
  match p.cmd with
  | .nop => true
  | .init => false
  | .update nb => (Instr.update nb).wf
  | .finalize => false

/-- The turns that deliver commands one after the other, each performed before the next is issued (R86): the operand is
written to DATA_IN, the command word to CMD, and the core moves. -/
def deliveryTurns (cs : List Pending) : List Event :=
  cs.flatMap fun p => [.write 1 p.data, .write 0 (encode p.cmd), .perform]

/-- `n` steps of the machine, stopping at the first fault or refusal (`Host.Core.run` of `core`, in this model's names). -/
def runSteps : Nat → State → Host.Outcome State Fault Refusal
  | 0, s => .next s
  | n + 1, s =>
    match step s with
    | .next t => runSteps n t
    | .fault f => .fault f
    | .refused r => .refused r

end Sys2Proof.Machine
end

