-- ==== Sys2Proof/Certificates/Slice0/Obligations.lean ====
section
/-! DEFINITION. The statements about the model, each with the rule of spec/ it formalises. -/

open Sys2Proof Sys2Proof.Machine

/-! ### The encoding -/

/-- 30_encoding.md R64, R65, R69 on words written out: one of each command, and one of each rejection. -/
def Obligations.WordsWrittenOutDecode : Prop :=
  decode 0b00000000000000000000000000000000 = .cmd .nop ∧
  decode 0b00000000000000000000000000000001 = .cmd .init ∧
  decode 0b00000000000000000000000000110010 = .cmd (.update 3) ∧
  decode 0b00000000000000000000000000000011 = .cmd .finalize ∧
  decode 0b00000000000000000000000001010010 = .badLength ∧
  decode 0b00000000000000000000000000010011 = .illegal ∧
  decode 0b10000000000000000000000001010010 = .illegal

/-- Decoding and encoding agree, in both directions, on all 2^32 words: a word decodes to a command exactly when the command
is well formed and the word is its encoding (30_encoding.md R64 to R69). -/
def Obligations.DecodesExactlyItsEncodings : Prop :=
  ∀ (w : Word) (i : Instr), decode w = .cmd i ↔ i.wf = true ∧ encode i = w

/-- 30_encoding.md R65: the complete list of the legal words with their commands, that every other word records an error when
it is issued and makes nothing pending, and that a reserved OP records ILLEGAL_CMD. -/
def Obligations.LegalWordsAreExactlyTheEight : Prop :=
  (∀ w, decode w = .cmd .nop ↔ w = 0x00000000) ∧
  (∀ w, decode w = .cmd .init ↔ w = 0x00000001) ∧
  (∀ w nb, decode w = .cmd (.update nb) ↔
    (nb = 0 ∧ w = 0x00000002) ∨ (nb = 1 ∧ w = 0x00000012) ∨ (nb = 2 ∧ w = 0x00000022) ∨ (nb = 3 ∧ w = 0x00000032) ∨
    (nb = 4 ∧ w = 0x00000042)) ∧
  (∀ w, decode w = .cmd .finalize ↔ w = 0x00000003) ∧
  (∀ (w : Word) (s : State),
    w ∉ [0x00000000, 0x00000001, 0x00000002, 0x00000012, 0x00000022, 0x00000032, 0x00000042, 0x00000003] →
    (issue w s).err = true ∧ (issue w s).pending = s.pending) ∧
  (∀ (w : Word) (s : State), 4 ≤ w.toNat % 16 → s.pending = none → s.err = false → (issue w s).errcode = 1)

/-- 30_encoding.md R70 and R71 (with the order of causes of 60_exceptions.md R130): what the core records for a word that is
no command, in terms of the bits of the word, and that it writes nothing else. -/
def Obligations.RejectedWordsRecordTheirError : Prop :=
  ∀ (w : Word) (s : State), s.pending = none →
    ((w.toNat ≥ 2 ^ 7 ∨ 4 ≤ w.toNat % 16 ∨ (w.toNat % 16 ≠ 2 ∧ w.toNat / 16 % 8 ≠ 0)) →
      issue w s = { s with errcode := if s.err then s.errcode else 1, err := true, dv := false }) ∧
    ((w = 0x52 ∨ w = 0x62 ∨ w = 0x72) →
      issue w s = { s with errcode := if s.err then s.errcode else 2, err := true, dv := false })

/-- spec/opcode_table.json: a decoded command's word matches its row of the table under the row's mask, and no word matches
the rows of two different commands. -/
def Obligations.TableRowsMatchAndDoNotOverlap : Prop :=
  (∀ w i, decode w = .cmd i → w &&& i.tableMask = i.tableMatch) ∧
  (∀ (w : Word) (i j : Instr), w &&& i.tableMask = i.tableMatch → w &&& j.tableMask = j.tableMatch → i.op = j.op)

/-- 30_encoding.md R73: the port access of every line of the assembler, with the register names of 10_state.md R33. -/
def Obligations.AssemblerLinesAreTheirPortAccess : Prop :=
  Line.event .nop = .write 0 0x00000000 ∧
  Line.event .init = .write 0 0x00000001 ∧
  (∀ n : Fin 5, Line.event (.update n) = .write 0 (encode (.update (BitVec.ofNat 3 n.val)))) ∧
  Line.event .finalize = .write 0 0x00000003 ∧
  (∀ w, Line.event (.cmd w) = .write 0 w) ∧
  (∀ r v, Line.event (.wr r v) = .write r.index v) ∧
  (∀ r, Line.event (.rd r) = .read r.index) ∧
  (∀ r, Reg.ofIndex r.index = r) ∧
  Reg.index .cmd = 0 ∧ Reg.index .dataIn = 1 ∧ Reg.index .status = 2 ∧ Reg.index .totalLo = 4 ∧ Reg.index .totalHi = 5 ∧
  (∀ i : Fin 8, (Reg.index (.digest i)).toNat = 8 + i.val)

/-! ### The register port

The turns of `schedule` and the record `readLog` of what the host has read are how the model shows the host; they are its
choice (log entries 1 and 3), and what the statements say of those two fields is no rule of the spec. -/

/-- 20_memory.md R47: what a read returns at each of the sixteen indices, that it changes no element of the core, and that a
second read returns the same. The value goes to the host (`readLog`). -/
def Obligations.ReadReturnsTheRegisterAndChangesNothing : Prop :=
  ∀ (s : State) (idx : BitVec 4) (rest : List Event), s.schedule = .read idx :: rest →
    ∃ t, step s = .next t ∧
      t = { s with
        schedule := rest
        readLog :=
          ([0, s.dataIn, s.status, 0, s.total.extractLsb' 0 32, s.total.extractLsb' 32 32, 0, 0,
            s.digest[0], s.digest[1], s.digest[2], s.digest[3], s.digest[4], s.digest[5], s.digest[6],
            s.digest[7]] : List Word).getD idx.toNat 0 :: s.readLog } ∧
      ∀ j, regRead j t = regRead j s

/-- 20_memory.md R48: the effect of a write at each index; a write to DATA_IN is idempotent and a write to CMD is not. -/
def Obligations.WriteHasExactlyTheRuledEffect : Prop :=
  (∀ (s : State) (idx : BitVec 4) (v : Word) (rest : List Event), s.schedule = .write idx v :: rest →
    (idx = 0 → step s = .next { issue v s with schedule := rest }) ∧
    (idx = 1 → step s = .next { s with dataIn := v, schedule := rest }) ∧
    (idx ≠ 0 → idx ≠ 1 → step s = .next { s with schedule := rest })) ∧
  (∀ (s : State) (v : Word), regWrite 1 v (regWrite 1 v s) = regWrite 1 v s) ∧
  (∃ (s : State) (w : Word), regWrite 0 w (regWrite 0 w s) ≠ regWrite 0 w s)

/-- 10_state.md R35: every field of STATUS and its reserved bits, the packing formula, the reset value, and that a write to
STATUS is ignored. -/
def Obligations.StatusFieldsReadTheState : Prop :=
  (∀ s : State,
    s.status.extractLsb' 0 1 = BitVec.ofBool s.pending.isSome ∧
    s.status.extractLsb' 1 1 = BitVec.ofBool s.dv ∧
    s.status.extractLsb' 2 1 = BitVec.ofBool s.err ∧
    s.status.extractLsb' 3 1 = 0 ∧
    s.status.extractLsb' 4 3 = s.errcode ∧
    s.status.extractLsb' 7 1 = 0 ∧
    s.status.extractLsb' 8 6 = s.bufsize ∧
    s.status.extractLsb' 14 18 = 0 ∧
    s.status.toNat = s.pending.isSome.toNat + 2 * s.dv.toNat + 4 * s.err.toNat + 16 * s.errcode.toNat +
      256 * s.bufsize.toNat ∧
    regRead 2 s = s.status) ∧
  State.reset.status = 0 ∧
  ∀ (s : State) (v : Word), regWrite 2 v s = s

/-- 20_memory.md R44 and 60_exceptions.md R136: in every core's own window the register at word index idx is at BASE + 4 * idx,
BASE is 64-byte aligned, the core's decoding of a host address gives the index back, and no address is in two windows. BASE has
no fixed value (`Config.windowGap` is opaque, log entry 13); the cores are numbered in the order of their windows (log
entry 18). -/
def Obligations.WindowAddressesDecodeToTheirIndex : Prop :=
  (∀ k, Config.base k % 64 = 0) ∧
  (∀ (k : Nat) (idx : BitVec 4),
    hostAddress k idx = Config.base k + 4 * idx.toNat ∧ indexOfHostAddress k (hostAddress k idx) = some idx) ∧
  ∀ k j a : Nat, Config.base k ≤ a → a < Config.base k + 64 → Config.base j ≤ a → a < Config.base j + 64 → k = j

/-! ### Issue, errors and the core's turn -/

/-- 40_stream_commands.md R75 with 60_exceptions.md R126: a write to CMD, in each of the rule's cases, as the whole next
state; an accepted command makes BUSY 1; and a perform of INIT keeps an error recorded while it was pending. -/
def Obligations.CmdWriteIssuesByTheRule : Prop :=
  (∀ (s : State) (w : Word) (rest : List Event), s.schedule = .write 0 w :: rest →
    (s.pending ≠ none →
      step s = .next { s with
        schedule := rest, errcode := if s.err then s.errcode else 3, err := true, dv := false }) ∧
    (s.pending = none → decode w = .illegal →
      step s = .next { s with
        schedule := rest, errcode := if s.err then s.errcode else 1, err := true, dv := false }) ∧
    (s.pending = none → decode w = .badLength →
      step s = .next { s with
        schedule := rest, errcode := if s.err then s.errcode else 2, err := true, dv := false }) ∧
    (∀ i, s.pending = none → decode w = .cmd i → i ≠ .init →
      step s = .next { s with schedule := rest, pending := some ⟨i, s.dataIn⟩ }) ∧
    (s.pending = none → decode w = .cmd .init →
      step s = .next { s with
        schedule := rest, err := false, errcode := 0, dv := false, pending := some ⟨.init, s.dataIn⟩ }) ∧
    (∀ t i, s.pending = none → decode w = .cmd i → step s = .next t → t.status.getLsbD 0 = true)) ∧
  ∀ s t : State, exec .init s = .next t → t.err = s.err ∧ t.errcode = s.errcode ∧ t.dv = s.dv

/-- A step runs the decoded command: a word that decodes to a command, written to CMD while the core is idle, is latched, and
on the core's turn, in whatever state that finds it pending, the step is `exec` of that command (40_stream_commands.md R75,
R76). Around `exec` the step only takes the turn off the schedule. The last three clauses rest on the model's choice (log
entry 2): with an empty schedule the core moves; and with nothing pending, where R76 gives the core no step and R138 says
that it holds its state, a turn of the core is a step of the model that changes nothing but the schedule. -/
def Obligations.StepRunsTheIssuedCommand : Prop :=
  (∀ (s : State) (w : Word) (i : Instr) (rest : List Event),
    s.schedule = .write 0 w :: rest → s.pending = none → decode w = .cmd i →
    ∃ t, step s = .next t ∧ t.pending = some ⟨i, s.dataIn⟩ ∧ t.schedule = rest) ∧
  (∀ (s : State) (i : Instr) (d : Word) (rest : List Event),
    s.pending = some ⟨i, d⟩ → s.schedule = .perform :: rest → step s = exec i { s with schedule := rest }) ∧
  (∀ (s : State) (i : Instr) (d : Word), s.pending = some ⟨i, d⟩ → s.schedule = [] → step s = exec i s) ∧
  (∀ (s : State) (rest : List Event), s.pending = none → s.schedule = .perform :: rest →
    step s = .next { s with schedule := rest }) ∧
  (∀ s : State, s.pending = none → s.schedule = [] → step s = .next s)

/-- The model's placing of a command word (log entry 7): the very next step is `exec` of the command the decoder reads, which
stands pending with the DATA_IN of the state it was placed in. -/
def Obligations.PlacedWordRunsNext : Prop :=
  ∀ (s : State) (nbits w : Nat) (i : Instr), decodeTableWord nbits w = some i →
    step (s.withFetchWord nbits w) = exec i (s.withFetchWord nbits w) ∧
    (s.withFetchWord nbits w).pending = some ⟨i, s.dataIn⟩

/-- 20_memory.md R58: while a command is pending no step makes another one pending; only its perform or a reset ends it. -/
def Obligations.OnlyPerformOrResetEndsPending : Prop :=
  ∀ (s t : State) (p : Pending), s.pending = some p → step s = .next t →
    t.pending = some p ∨ (t.pending = none ∧ (s.nextTurn = .perform ∨ s.nextTurn = .reset))

/-- 60_exceptions.md R124, first error wins: the first error recorded gives ERRCODE its code; a later one keeps ERRCODE, sets
ERR (already 1) and clears DV; and no other step than a reset or the issue of an INIT to an idle core changes a recorded
code. -/
def Obligations.FirstErrorWins : Prop :=
  (∀ (s : State) (e : ErrName), s.err = false →
    (recordError e s).errcode = e.code ∧ (recordError e s).err = true ∧ (recordError e s).dv = false) ∧
  (∀ (s : State) (w : Word), s.err = true → (s.pending ≠ none ∨ ∀ i, decode w ≠ .cmd i) →
    issue w s = { s with dv := false }) ∧
  (∀ s t : State, s.err = true → step s = .next t → s.nextTurn ≠ .reset →
    ¬ (s.pending = none ∧ s.nextTurn = .write 0 (encode .init)) → t.errcode = s.errcode ∧ t.err = true)

/-- 10_state.md R28, last sentence: "Only INIT and reset clear ERR and ERRCODE." A step clears ERR, or changes a recorded
ERRCODE, only as a reset or as the issue of an INIT to an idle core. -/
def Obligations.OnlyInitOrResetClearsTheError : Prop :=
  ∀ s t : State, s.err = true → step s = .next t → t.err = false ∨ t.errcode ≠ s.errcode →
    s.nextTurn = .reset ∨ (s.pending = none ∧ s.nextTurn = .write 0 (encode .init))

/-- 10_state.md R27, as a rule of single steps: what sets DV and what clears it. -/
def Obligations.OnlyFinalizeSetsDv : Prop :=
  ∀ s t : State, step s = .next t →
    (s.dv = false → t.dv = true →
      s.nextTurn = .perform ∧ s.err = false ∧ ∃ d, s.pending = some ⟨.finalize, d⟩) ∧
    (s.dv = true → t.dv = false →
      s.nextTurn = .reset ∨
      ∃ w, s.nextTurn = .write 0 w ∧ (t.err = true ∨ (s.pending = none ∧ w = encode .init)))

/-- 10_state.md R20 and R24: H and TOTAL are written only by reset, a performed INIT, and an UPDATE that completes a block;
the last raises TOTAL by 64. -/
def Obligations.ChainingStateHasThreeWriters : Prop :=
  ∀ s t : State, step s = .next t →
    (t.h = s.h ∧ t.total = s.total) ∨
    (t.h = iv ∧ t.total = 0 ∧
      (s.nextTurn = .reset ∨ (s.nextTurn = .perform ∧ ∃ d, s.pending = some ⟨.init, d⟩))) ∨
    (t.total = s.total + 64 ∧ s.nextTurn = .perform ∧ s.err = false ∧
      ∃ nb d, s.pending = some ⟨.update nb, d⟩ ∧ 64 ≤ s.bufsize.toNat + nb.toNat)

/-- A host access leaves the computation as it was: H, BUF, BUFSIZE, TOTAL and DIGEST are written by performs and resets only,
so a read made while a command is pending gives the values from before its perform (20_memory.md R48, R57;
70_reset_and_hazards.md R147). -/
def Obligations.HostAccessLeavesTheComputation : Prop :=
  ∀ s t : State, step s = .next t → s.nextTurn ≠ .perform → s.nextTurn ≠ .reset →
    t.h = s.h ∧ t.buf = s.buf ∧ t.bufsize = s.bufsize ∧ t.total = s.total ∧ t.digest = s.digest ∧
    (s.pending ≠ none → ∀ idx, idx ≠ 1 → idx ≠ 2 → regRead idx t = regRead idx s)

/-! ### The commands -/

/-- 40_stream_commands.md R79: NOP. Its word; its perform, whether ERR is 0 or 1; its issue and perform from an idle state
leave everything (and so STATUS) as it was, with BUSY 1 between; the errors of its issue. -/
def Obligations.NopDoesNothing : Prop :=
  encode .nop = 0x00000000 ∧
  (∀ s : State, exec .nop s = .next { s with pending := none }) ∧
  (∀ (s : State) (rest : List Event), s.pending = none → s.schedule = .write 0 0x00000000 :: .perform :: rest →
    (∃ t, step s = .next t ∧ t.status = s.status ||| 1) ∧ runSteps 2 s = .next { s with schedule := rest }) ∧
  (∀ s : State, s.pending ≠ none → (issue 0x00000000 s).err = true ∧
    (s.err = false → (issue 0x00000000 s).errcode = 3)) ∧
  (∀ (w : Word) (s : State), w.toNat % 16 = 0 → w ≠ 0 → s.pending = none → s.err = false →
    (issue w s).err = true ∧ (issue w s).errcode = 1)

/-- The perform of INIT (40_stream_commands.md R80) as the whole next state, for a canonical BUF: H, BUF, BUFSIZE, TOTAL and
DIGEST start over; ERR, ERRCODE, DV and DATA_IN are not written; the command is retired. -/
def Obligations.InitPerformStartsOver : Prop :=
  ∀ s : State, Memory.wf s.buf →
    exec .init s = .next { s with
      h := iv, buf := [], bufsize := 0, total := 0, digest := Vector.replicate 8 0, pending := none }

/-- 40_stream_commands.md R81: an INIT issued and performed with no error recorded between leaves the reset state of every
element but DATA_IN, whatever the state before. (`schedule` and `readLog` are the host's.) -/
def Obligations.InitLeavesTheResetState : Prop :=
  ∀ (s : State) (rest : List Event), Memory.wf s.buf → s.pending = none →
    s.schedule = .write 0 (encode .init) :: .perform :: rest →
    runSteps 2 s = .next { State.reset with dataIn := s.dataIn, schedule := rest, readLog := s.readLog }

/-- The corner of 40_stream_commands.md R80 that conflict C6 settles: a word written to CMD while an INIT is pending is dropped
and records OVERRUN, and the INIT's perform keeps that record. -/
def Obligations.OverrunDuringInitSurvivesIt : Prop :=
  ∀ (s : State) (w : Word) (rest : List Event), Memory.wf s.buf → s.pending = none →
    s.schedule = .write 0 (encode .init) :: .write 0 w :: .perform :: rest →
    runSteps 3 s = .next { State.reset with
      dataIn := s.dataIn, schedule := rest, readLog := s.readLog, err := true, errcode := 3 }

/-- UPDATE that completes no block (40_stream_commands.md R82) as the whole next state: the `nb` lanes stand in BUF from index
BUFSIZE on, BUFSIZE is raised by `nb`, the command is retired, and nothing else is written. `nb = 0` is the no-op of the
rule. -/
def Obligations.UpdateBuffersItsBytes : Prop :=
  ∀ (s : State) (nb : BitVec 3) (d : Word), nb.toNat ≤ 4 → s.pending = some ⟨.update nb, d⟩ → s.err = false →
    s.bufsize.toNat + nb.toNat ≤ 63 →
    exec (.update nb) s = .next { s with
      buf := s.buf.writeBytes s.bufsize.toNat (lanes nb d)
      bufsize := s.bufsize + nb.zeroExtend 6
      pending := none }

/-- UPDATE that completes a block (40_stream_commands.md R82, R83) as the whole next state: H is compressed once with the
buffered bytes followed by the first lanes, TOTAL rises by 64, the lanes left over start the next block at `BUF[0]`. -/
def Obligations.UpdateCompressesTheFullBlock : Prop :=
  ∀ (s : State) (nb : BitVec 3) (d : Word), Memory.wf s.buf → nb.toNat ≤ 4 → s.pending = some ⟨.update nb, d⟩ →
    s.err = false → 64 ≤ s.bufsize.toNat + nb.toNat →
    exec (.update nb) s = .next { s with
      h := compress s.h (s.buf.readBytes 0 s.bufsize.toNat ++ (lanes nb d).take (64 - s.bufsize.toNat))
      buf := (s.buf.writeBytes s.bufsize.toNat ((lanes nb d).take (64 - s.bufsize.toNat))).writeBytes 0
        ((lanes nb d).drop (64 - s.bufsize.toNat))
      bufsize := BitVec.ofNat 6 (s.bufsize.toNat + nb.toNat - 64)
      total := s.total + 64
      pending := none }

/-- UPDATE's frame: of BUF it writes only the bytes at `(BUFSIZE + j) mod 64` for j < nb, and there its lanes, in order; with
ERR = 1 it writes none. DIGEST, DV, ERR, ERRCODE and DATA_IN stay (40_stream_commands.md R82). -/
def Obligations.UpdateWritesOnlyItsLanes : Prop :=
  ∀ (s t : State) (nb : BitVec 3) (d : Word), Memory.wf s.buf → s.pending = some ⟨.update nb, d⟩ →
    exec (.update nb) s = .next t →
    (∀ a, (∀ j, j < nb.toNat → a ≠ (s.bufsize.toNat + j) % 64) → t.buf.read a = s.buf.read a) ∧
    (s.err = true → ∀ a, t.buf.read a = s.buf.read a) ∧
    (s.err = false → ∀ j, j < nb.toNat →
      t.buf.read ((s.bufsize.toNat + j) % 64) = d.extractLsb' (24 - 8 * j) 8) ∧
    t.digest = s.digest ∧ t.dv = s.dv ∧ t.err = s.err ∧ t.errcode = s.errcode ∧ t.dataIn = s.dataIn ∧
    t.schedule = s.schedule ∧ t.readLog = s.readLog

/-- 30_encoding.md R68: the operand is DATA_IN at the moment the CMD write is accepted; its lanes in message order; the low
order bits beyond the first `nb` lanes are ignored, whatever their value. -/
def Obligations.UpdateTakesTheHighLanes : Prop :=
  (∀ (s : State) (nb : BitVec 3), nb.toNat ≤ 4 → s.pending = none →
    (issue (encode (.update nb)) s).pending = some ⟨.update nb, s.dataIn⟩) ∧
  (∀ (nb : BitVec 3) (d : Word),
    lanes nb d = [d.extractLsb 31 24, d.extractLsb 23 16, d.extractLsb 15 8, d.extractLsb 7 0].take nb.toNat) ∧
  (∀ (s : State) (nb : BitVec 3) (d d' : Word), nb.toNat ≤ 4 →
    (∀ i, 32 - 8 * nb.toNat ≤ i → i < 32 → d.getLsbD i = d'.getLsbD i) →
    ∃ t, exec (.update nb) { s with pending := some ⟨.update nb, d⟩ } = .next t ∧
      exec (.update nb) { s with pending := some ⟨.update nb, d'⟩ } = .next t)

/-- 70_reset_and_hazards.md R146: DATA_IN may be rewritten while a command is pending without affecting it. -/
def Obligations.RewritingDataInLeavesThePendingCommand : Prop :=
  ∀ (s t : State) (p : Pending) (v : Word), s.pending = some p → exec p.cmd s = .next t →
    (regWrite 1 v s).pending = some p ∧ exec p.cmd (regWrite 1 v s) = .next { t with dataIn := v }

/-- 60_exceptions.md R121 (10_state.md R28): while ERR is 1, UPDATE and FINALIZE are performed with no effect but that they are
retired. -/
def Obligations.PoisonedCommandsHaveNoEffect : Prop :=
  ∀ s : State, s.err = true →
    (∀ nb : BitVec 3, nb.toNat ≤ 4 → exec (.update nb) s = .next { s with pending := none }) ∧
    exec .finalize s = .next { s with pending := none }

/-- A byte count of 5 to 7 is no UPDATE (30_encoding.md R71): no word decodes to it, and the meaning stops under its own name
(the model's own, log entry 6). -/
def Obligations.FiveToSevenBytesIsNoUpdate : Prop :=
  ∀ nb : BitVec 3, 4 < nb.toNat →
    (∀ w, decode w ≠ .cmd (.update nb)) ∧ ∀ s, exec (.update nb) s = .fault .illFormedUpdate

/-- The perform of FINALIZE (40_stream_commands.md R84) as the whole next state: DIGEST is the digest function of H, the
buffered bytes and the untruncated length, DV is 1, the command is retired, and nothing else is written. -/
def Obligations.FinalizeWritesDigestAndDv : Prop :=
  ∀ s : State, s.err = false →
    exec .finalize s = .next { s with
      digest := sha256Final s.h (s.buf.readBytes 0 s.bufsize.toNat) (s.total.toNat + s.bufsize.toNat)
      dv := true
      pending := none }

/-- 42_padding_digest.md R112: two FINALIZE commands with no UPDATE or INIT between them, any number of NOPs allowed, write the
same DIGEST; H, BUF, BUFSIZE and TOTAL are as before both (R111). -/
def Obligations.RepeatedFinalizeGivesTheSameDigest : Prop :=
  ∀ (s : State) (n : Nat), s.pending = none → s.err = false →
    ∃ t u,
      runSteps 2 { s with schedule := [.write 0 (encode .finalize), .perform] } = .next t ∧
      runSteps (2 * n + 2) { t with
        schedule := (List.replicate n [Event.write 0 (encode .nop), .perform]).flatten ++
          [.write 0 (encode .finalize), .perform] } = .next u ∧
      u.digest = t.digest ∧ u.dv = true ∧
      u.h = s.h ∧ u.buf = s.buf ∧ u.bufsize = s.bufsize ∧ u.total = s.total

/-- The frame of every perform: it raises no error (40_stream_commands.md R78), leaves ERR, ERRCODE and DATA_IN, and retires
its command; only FINALIZE writes DV; NOP and FINALIZE leave H, BUF, BUFSIZE and TOTAL; NOP and UPDATE leave DIGEST. -/
def Obligations.PerformFrame : Prop :=
  ∀ (i : Instr) (s t : State), exec i s = .next t →
    t.err = s.err ∧ t.errcode = s.errcode ∧ t.dataIn = s.dataIn ∧ t.pending = none ∧
    t.schedule = s.schedule ∧ t.readLog = s.readLog ∧
    (i ≠ .finalize → t.dv = s.dv) ∧
    (i = .nop ∨ i = .finalize →
      t.h = s.h ∧ t.bufsize = s.bufsize ∧ t.total = s.total ∧ ∀ a, t.buf.read a = s.buf.read a) ∧
    (i = .nop ∨ (∃ nb, i = .update nb) → t.digest = s.digest)

/-! ### Reset -/

/-- 70_reset_and_hazards.md R141 (R139, R140): the reset step, from any state and at any point, a pending command and a
recorded error among it, writes every element of the core; the model's own two fields are left out of the comparison. -/
def Obligations.ResetWritesEveryElement : Prop :=
  ∀ (s : State) (rest : List Event), s.schedule = .reset :: rest →
    ∃ t, step s = .next t ∧
      { t with schedule := [], readLog := [] } =
        { h := iv, buf := [], bufsize := 0, total := 0, digest := Vector.replicate 8 0, dv := false, err := false,
          errcode := 0, pending := none, dataIn := 0, schedule := [], readLog := [] }

/-- 70_reset_and_hazards.md R142: after reset the core is idle, every register reads 0, and a FINALIZE issued at once gives
the digest of the empty message. -/
def Obligations.ResetStateIsStartOfMessage : Prop :=
  State.reset.busy = false ∧ (∀ idx, regRead idx State.reset = 0) ∧
  ∃ t, runSteps 2 { State.reset with schedule := [.write 0 (encode .finalize), .perform] } = .next t ∧
    t.digest = sha256 [] ∧ t.dv = true ∧ t.err = false

/-- The invariant holds right after reset. -/
def Obligations.ResetMeetsTheInvariant : Prop := CoreInv State.reset

/-! ### Whole-machine rules -/

/-- Every step keeps the invariant: BUF's canonical form (20_memory.md R46), TOTAL a multiple of 64 (10_state.md R24), ERRCODE
defined and 0 exactly without an error (R28, R125), DV 0 while poisoned (R121), the pending command one of the core's, and
DIGEST 0 where no FINALIZE or error has been (R38). -/
def Obligations.StepKeepsTheInvariant : Prop :=
  ∀ s t : State, CoreInv s → step s = .next t → CoreInv t

/-- 60_exceptions.md R116 (93_implementation_defined.md, section 2): nothing stops the core. From every state that meets the
invariant, whatever the next turn, the step has a next state. -/
def Obligations.TheCoreNeverFails : Prop :=
  ∀ s : State, CoreInv s → ∃ t, step s = .next t

/-- 40_stream_commands.md R77: a pending command is performed after finitely many turns, whatever the host does meanwhile:
unless a reset discards it, some state at most as many steps on as turns are fixed still finds it pending, and the step from
there is its perform. The bound is the model's choice and none of the hardware's, for which R77 gives none: it counts the
turns of `schedule` (log entry 1), after which the core moves (log entry 2). -/
def Obligations.PendingCommandIsPerformed : Prop :=
  ∀ (s : State) (p : Pending), CoreInv s → s.pending = some p → .reset ∉ s.schedule →
    ∃ n u t, n ≤ s.schedule.length ∧ runSteps n s = .next u ∧ u.pending = some p ∧
      exec p.cmd u.dropTurn = .next t ∧ step u = .next t ∧ t.pending = none

/-- 20_memory.md R59, polling: from a state with a command pending and no reset to come, wherever a later state reads BUSY = 0
the command has been performed at some step between. -/
def Obligations.IdleStatusMeansPerformed : Prop :=
  ∀ (s u : State) (p : Pending) (n : Nat), s.pending = some p → .reset ∉ s.schedule → runSteps n s = .next u →
    u.status.getLsbD 0 = false →
    ∃ m v t, m < n ∧ runSteps m s = .next v ∧ v.pending = some p ∧ v.nextTurn = .perform ∧
      exec p.cmd v.dropTurn = .next t ∧ step v = .next t

/-- `BUSY_LATENCY` is open (40_stream_commands.md R77, 70_reset_and_hazards.md R150): for every command and every number `n`
there is a run in which exactly `n` host reads of STATUS, all of them with BUSY = 1, come between the issue and the perform,
and the perform then is `exec` of the command on the state as issued but for what the host has read. That a latency is a
number of turns in `schedule` is the model's choice (log entry 1), and so is the record of the reads (log entry 3). -/
def Obligations.EveryLatencyIsAdmitted : Prop :=
  ∀ (s : State) (i : Instr) (n : Nat) (rest : List Event), s.pending = none → i.wf = true →
    s.schedule = .write 0 (encode i) :: (List.replicate n (.read 2) ++ .perform :: rest) →
    ∃ t, runSteps (n + 1) s = .next t ∧ t.pending = some ⟨i, s.dataIn⟩ ∧
      t = { accept i s with schedule := .perform :: rest, readLog := List.replicate n (accept i s).status ++ s.readLog } ∧
      (accept i s).status.getLsbD 0 = true ∧
      step t = exec i { t with schedule := rest }

/-- The reset state stands for the empty message (10_state.md R21, R22). -/
def Obligations.ResetTracksTheEmptyMessage : Prop := Tracks [] State.reset

/-- 10_state.md R21 to R24 and 40_stream_commands.md R83: between any two steps the state stands for the message, H for its
whole blocks and BUF for its tail, and each step changes that message as R80 and R82 say. -/
def Obligations.StepTracksTheMessage : Prop :=
  ∀ (s t : State) (M : List Byte), CoreInv s → Tracks M s → step s = .next t → Tracks (messageAfter s M) t

/-- 42_padding_digest.md R115 for the perform: FINALIZE, performed where the state stands for `M` and no error is recorded,
leaves `sha256 M` in DIGEST, and the state still stands for `M` (R88). `sha256` is the core's own digest of a whole message,
with R85's wrapped length; it is SHA-256 for `|M| < 2^61` only (log entry 10; 93_implementation_defined.md I12). -/
def Obligations.FinalizeGivesSha256OfTheMessage : Prop :=
  ∀ (s : State) (M : List Byte), Memory.wf s.buf → Tracks M s → s.err = false →
    ∃ t, exec .finalize s = .next t ∧ t.digest = sha256 M ∧ t.dv = true ∧ Tracks M t

/-- 42_padding_digest.md R115 as a run of the machine: the host's `hash "M"` (30_encoding.md R74), begun in any idle state,
with any latency of every command, ends with `sha256 M` in DIGEST, DV 1 and no error; the host's last eight reads gave the
digest words. `sha256` has R85's wrapped length and is SHA-256 for `|M| < 2^61` only (log entry 10;
93_implementation_defined.md I12). That `hash "M"` is a list of turns, with the number of polls of each `wait` as a parameter,
is the model's choice (log entry 17), and so is the record of the reads (log entry 3). -/
def Obligations.HashSequenceGivesSha256 : Prop :=
  ∀ (s : State) (M : List Byte) (initPolls finalPolls : Nat) (lat : Nat → Nat), CoreInv s → s.pending = none →
    ∃ t,
      runSteps (hashTurns initPolls finalPolls lat M).length
        { s with schedule := hashTurns initPolls finalPolls lat M } = .next t ∧
      t.digest = sha256 M ∧ t.dv = true ∧ t.err = false ∧ t.pending = none ∧ Tracks M t ∧
      (t.readLog.take 8).reverse = (sha256 M).toList

/-- 40_stream_commands.md R86, streaming equivalence: two deliveries of the same bytes, in any chunks of 0 to 4 bytes and with
any NOPs between, followed by FINALIZE, leave the same H, BUF[0..BUFSIZE), BUFSIZE, TOTAL and DIGEST. The
deliveries are lists of turns (log entry 1). -/
def Obligations.StreamingEquivalence : Prop :=
  ∀ (s : State) (cs cs' : List Pending), CoreInv s → s.pending = none → s.err = false →
    (∀ p ∈ cs, p.delivers = true) → (∀ p ∈ cs', p.delivers = true) →
    cs.flatMap Pending.payload = cs'.flatMap Pending.payload →
    ∃ t t',
      runSteps (3 * cs.length + 2)
        { s with schedule := deliveryTurns cs ++ [.write 0 (encode .finalize), .perform] } = .next t ∧
      runSteps (3 * cs'.length + 2)
        { s with schedule := deliveryTurns cs' ++ [.write 0 (encode .finalize), .perform] } = .next t' ∧
      t.h = t'.h ∧ t.buf.readBytes 0 t.bufsize.toNat = t'.buf.readBytes 0 t'.bufsize.toNat ∧
      t.bufsize = t'.bufsize ∧ t.total = t'.total ∧ t.digest = t'.digest

/-- 40_stream_commands.md R88: an UPDATE after a FINALIZE extends the same message. From a state that stands for `X`, FINALIZE
leaves `sha256 X`, and after the bytes of `cs` a second FINALIZE leaves `sha256` of `X` followed by them. `sha256` has R85's
wrapped length and is SHA-256 for messages shorter than 2^61 bytes only (log entry 10; 93_implementation_defined.md I12). -/
def Obligations.UpdateAfterFinalizeContinues : Prop :=
  ∀ (s : State) (X : List Byte) (cs : List Pending), CoreInv s → Tracks X s → s.pending = none → s.err = false →
    (∀ p ∈ cs, p.delivers = true) →
    ∃ t u,
      runSteps 2 { s with schedule := [.write 0 (encode .finalize), .perform] } = .next t ∧
      t.digest = sha256 X ∧ t.dv = true ∧
      runSteps (3 * cs.length + 2)
        { t with schedule := deliveryTurns cs ++ [.write 0 (encode .finalize), .perform] } = .next u ∧
      u.digest = sha256 (X ++ cs.flatMap Pending.payload) ∧ u.dv = true

/-- 10_state.md R22 and 42_padding_digest.md R109: the stale bytes of BUF are not observable. Two states that differ at most
in them take the same step, differ at most in them after it, and read alike at every index. -/
def Obligations.StaleBytesAreUnobservable : Prop :=
  ∀ s s' t : State, CoreInv s → CoreInv s' → SameButStale s s' → step s = .next t →
    ∃ t', step s' = .next t' ∧ SameButStale t t' ∧ t.readLog = t'.readLog ∧ ∀ idx, regRead idx t = regRead idx t'

/-- That distinct cores share no state is 10_state.md R18 and 60_exceptions.md R136; the platform this is stated over, a list
of states of which `stepCore` steps one, is the model's choice (log entry 15). A step of one core of it is that core's step
alone, and every other core's state is as it was. -/
def Obligations.CoresShareNoState : Prop :=
  ∀ (cores : List State) (k : Nat) (s t : State), cores[k]? = some s → step s = .next t →
    ∃ after, stepCore k cores = .next after ∧ after[k]? = some t ∧ after.length = cores.length ∧
      ∀ j, j ≠ k → after[j]? = cores[j]?

/-- A host address selects its core (60_exceptions.md R136, 20_memory.md R44; the platform is the list of log entry 15): an
access at the address of a register of one core is that core's step with the host's access as its next turn, and every other
core's state is as it was; an access at any other address reaches no core. -/
def Obligations.HostAddressSelectsItsCore : Prop :=
  (∀ (cores : List State) (k : Nat) (idx : BitVec 4) (s : State) (acc : BusAccess), cores[k]? = some s →
    acc.address = hostAddress k idx →
    ∃ t after, step { s with schedule := acc.event idx :: s.schedule } = .next t ∧
      busAccess acc cores = some (.next after) ∧ after[k]? = some t ∧ after.length = cores.length ∧
      ∀ j, j ≠ k → after[j]? = cores[j]?) ∧
  ∀ (cores : List State) (acc : BusAccess), (∀ k idx, k < cores.length → acc.address ≠ hostAddress k idx) →
    busAccess acc cores = none

/-! ### The hash functions -/

/-- 00_scope.md R13: big-endian packing by value, unpacking as its inverse, and the eight bytes of a 64-bit value. -/
def Obligations.PackingIsBigEndian : Prop :=
  (∀ b0 b1 b2 b3 : Byte,
    (be32 b0 b1 b2 b3).toNat = b0.toNat * 2 ^ 24 + b1.toNat * 2 ^ 16 + b2.toNat * 2 ^ 8 + b3.toNat) ∧
  (∀ b0 b1 b2 b3 : Byte, bytesBe32 (be32 b0 b1 b2 b3) = [b0, b1, b2, b3]) ∧
  (∀ w : Word, ∃ b0 b1 b2 b3, bytesBe32 w = [b0, b1, b2, b3] ∧ be32 b0 b1 b2 b3 = w) ∧
  (∀ v : BitVec 64, (bytesBe64 v).foldl (fun n b => n * 256 + b.toNat) 0 = v.toNat)

/-- 41_compression.md R94 and R95: Choose and Majority, by formula and by bit, with the rules' corner cases and examples. -/
def Obligations.ChooseAndMajorityByBit : Prop :=
  (∀ x y z : Word, ch x y z = (x &&& y) ^^^ (~~~x &&& z)) ∧
  (∀ (x y z : Word) (i : Nat), (ch x y z).getLsbD i = if x.getLsbD i then y.getLsbD i else z.getLsbD i) ∧
  (∀ y z : Word, ch 0xffffffff y z = y ∧ ch 0 y z = z) ∧
  ch 0x510e527f 0x9b05688c 0x1f83d9ab = 0x1f85c98c ∧
  (∀ x y z : Word, maj x y z = (x &&& y) ^^^ (x &&& z) ^^^ (y &&& z)) ∧
  (∀ (x y z : Word) (i : Nat),
    (maj x y z).getLsbD i = decide (2 ≤ (x.getLsbD i).toNat + (y.getLsbD i).toNat + (z.getLsbD i).toNat)) ∧
  (∀ z : Word, maj 0xffffffff 0 z = z) ∧
  maj 0x6a09e667 0xbb67ae85 0x3c6ef372 = 0x3a6fe667

/-- 41_compression.md R96 to R99 over 00_scope.md R12's ROTR: the sigma functions by bit, a rotation taking bit
`(i + n) mod 32` and a shift bit `i + n`, 0 past the top; with the rules' examples. -/
def Obligations.SigmasByBit : Prop :=
  (∀ (x : Word) (n i : Nat), 0 < n → n < 32 → i < 32 → (rotr x n).getLsbD i = x.getLsbD ((i + n) % 32)) ∧
  (∀ (x : Word) (i : Nat), i < 32 →
    (bigSigma0 x).getLsbD i =
      (x.getLsbD ((i + 2) % 32) ^^ x.getLsbD ((i + 13) % 32) ^^ x.getLsbD ((i + 22) % 32)) ∧
    (bigSigma1 x).getLsbD i =
      (x.getLsbD ((i + 6) % 32) ^^ x.getLsbD ((i + 11) % 32) ^^ x.getLsbD ((i + 25) % 32)) ∧
    (smallSigma0 x).getLsbD i =
      (x.getLsbD ((i + 7) % 32) ^^ x.getLsbD ((i + 18) % 32) ^^ x.getLsbD (i + 3)) ∧
    (smallSigma1 x).getLsbD i =
      (x.getLsbD ((i + 17) % 32) ^^ x.getLsbD ((i + 19) % 32) ^^ x.getLsbD (i + 10))) ∧
  bigSigma0 0x00000001 = 0x40080400 ∧ bigSigma0 0xffffffff = 0xffffffff ∧ bigSigma0 0x6a09e667 = 0xce20b47e ∧
  bigSigma1 0x00000001 = 0x04200080 ∧ bigSigma1 0x510e527f = 0x3587272b ∧
  smallSigma0 0x00000001 = 0x02004000 ∧ smallSigma0 0xffffffff = 0x1fffffff ∧
  smallSigma1 0x00000001 = 0x0000a000 ∧ smallSigma1 0xffffffff = 0x003fffff

/-- 41_compression.md R100 (20_memory.md R51): the schedule of every 64-byte block has 64 words, the first sixteen are the
block's words, big-endian, and the others follow the recurrence; with the rule's example, the padded block of "abc". -/
def Obligations.ScheduleFollowsTheRecurrence : Prop :=
  (∀ (blk : List Byte), blk.length = 64 →
    (messageSchedule blk).length = 64 ∧
    (∀ t, t < 16 →
      (messageSchedule blk).getD t 0 =
        be32 (blk.getD (4 * t) 0) (blk.getD (4 * t + 1) 0) (blk.getD (4 * t + 2) 0) (blk.getD (4 * t + 3) 0)) ∧
    (∀ t, 16 ≤ t → t < 64 →
      (messageSchedule blk).getD t 0 =
        smallSigma1 ((messageSchedule blk).getD (t - 2) 0) + (messageSchedule blk).getD (t - 7) 0 +
          smallSigma0 ((messageSchedule blk).getD (t - 15) 0) + (messageSchedule blk).getD (t - 16) 0)) ∧
  [0, 15, 16, 17, 63].map (fun t => (messageSchedule (pad [0x61, 0x62, 0x63] 0x18)).getD t 0) =
    [0x61626380, 0x00000018, 0x61626380, 0x000f0000, 0x12b1edeb]

/-- 41_compression.md R101: the 64 rounds by index, with their `K[t]` and `W[t]`, and the final additions; `v t` holds the
working variables after `t` rounds. With the rule's example: `H = IV` and the padded block of "abc", round 0 and the result. -/
def Obligations.CompressRunsTheSixtyFourRounds : Prop :=
  (∀ (h : Vector Word 8) (blk : List Byte), blk.length = 64 →
    ∃ v : Nat → Work,
      v 0 = ⟨h[0], h[1], h[2], h[3], h[4], h[5], h[6], h[7]⟩ ∧
      (∀ t, t < 64 →
        ∃ t1 t2 : Word,
          t1 = (v t).h + bigSigma1 (v t).e + ch (v t).e (v t).f (v t).g + roundK.getD t 0 +
            (messageSchedule blk).getD t 0 ∧
          t2 = bigSigma0 (v t).a + maj (v t).a (v t).b (v t).c ∧
          v (t + 1) =
            ⟨t1 + t2, (v t).a, (v t).b, (v t).c, (v t).d + t1, (v t).e, (v t).f, (v t).g⟩) ∧
      compress h blk =
        #v[h[0] + (v 64).a, h[1] + (v 64).b, h[2] + (v 64).c, h[3] + (v 64).d,
           h[4] + (v 64).e, h[5] + (v 64).f, h[6] + (v 64).g, h[7] + (v 64).h]) ∧
  temp1 (startWork iv) 0x428a2f98 0x61626380 = 0x54da50e8 ∧ temp2 (startWork iv) = 0x08909ae5 ∧
  hashRound (startWork iv) (0x428a2f98, 0x61626380) =
    ⟨0x5d6aebcd, 0x6a09e667, 0xbb67ae85, 0x3c6ef372, 0xfa2a4622, 0x510e527f, 0x9b05688c, 0x1f83d9ab⟩ ∧
  compress iv (pad [0x61, 0x62, 0x63] 0x18) =
    #v[0xba7816bf, 0x8f01cfea, 0x414140de, 0x5dae2223, 0xb00361a3, 0x96177a9c, 0xb410ff61, 0xf20015ad]

/-- 42_padding_digest.md R105, R108 and R106 (which the spec derives from R105): the zero-fill count, the least that brings the
tail to 56 modulo 64, as the model computes it in the naturals (log entry 9, DEDUCED); the padded tail byte for byte, as one
block or as two. -/
def Obligations.PaddingFillsOneOrTwoBlocks : Prop :=
  ∀ (B : List Byte) (len : BitVec 64), B.length ≤ 63 →
    ((B.length + 1 + zeroCount B.length) % 64 = 56 ∧
      ∀ z, (B.length + 1 + z) % 64 = 56 → zeroCount B.length ≤ z) ∧
    (B.length ≤ 55 → zeroCount B.length = 55 - B.length ∧ (pad B len).length = 64 ∧
      pad B len = B ++ [0x80] ++ List.replicate (55 - B.length) 0x00 ++ bytesBe64 len) ∧
    (56 ≤ B.length → zeroCount B.length = 119 - B.length ∧ (pad B len).length = 128 ∧
      (pad B len).take 64 = B ++ [0x80] ++ List.replicate (63 - B.length) 0x00 ∧
      (pad B len).drop 64 = List.replicate 56 0x00 ++ bytesBe64 len)

/-- 42_padding_digest.md R110: the digest function compresses one padded block for a tail of up to 55 bytes and two, chained,
for a longer one. -/
def Obligations.DigestFunctionChainsThePaddedBlocks : Prop :=
  ∀ (h : Vector Word 8) (B : List Byte) (L : Nat), B.length ≤ 63 →
    (B.length ≤ 55 → sha256Final h B L = compress h (pad B (lengthField L))) ∧
    (56 ≤ B.length →
      sha256Final h B L =
        compress (compress h ((pad B (lengthField L)).take 64)) ((pad B (lengthField L)).drop 64)) ∧
    (lengthField L).toNat = 8 * L % 2 ^ 64

/-- 42_padding_digest.md R113 and R114 with 20_memory.md R53: the digest has 32 bytes, and byte `4i + j` is bits
`31 - 8j` to `24 - 8j` of `DIGEST[i]`. -/
def Obligations.DigestIsThirtyTwoBigEndianBytes : Prop :=
  ∀ d : Vector Word 8, (digestBytes d).length = 32 ∧
    ∀ (i : Fin 8) (j : Nat), j < 4 → (digestBytes d).getD (4 * i.val + j) 0 = d[i].extractLsb' (24 - 8 * j) 8
end

