-- ==== Sys2Proof/Laws/Compress.lean ====
section
/-! SUPPORT. Lengths of the compression's and the padding's parts. -/

namespace Sys2Proof.Machine

@[simp] theorem length_bytesBe32 (w : Word) : (bytesBe32 w).length = 4 := rfl

@[simp] theorem length_bytesBe64 (v : BitVec 64) : (bytesBe64 v).length = 8 := rfl

/-- An UPDATE of a well-formed count takes as many lanes. -/
theorem length_lanes {nb : BitVec 3} (h : nb.toNat ≤ 4) (d : Word) : (lanes nb d).length = nb.toNat := by
  simp [lanes, h]

/-- The lane an UPDATE takes as its byte `j` (R68). -/
theorem getD_lanes {nb : BitVec 3} (d : Word) {j : Nat} (h4 : j < 4) (hj : j < nb.toNat) :
    (lanes nb d).getD j 0 = d.extractLsb' (24 - 8 * j) 8 := by
  rw [lanes, List.getD_eq_getElem?_getD, List.getElem?_take_of_lt hj]
  interval_cases j <;> rfl

/-- A block of whole words gives a word for every four bytes. -/
theorem length_blockWords (n : Nat) : ∀ {blk : List Byte}, blk.length = 4 * n → (blockWords blk).length = n := by
  induction n with
  | zero => intro blk h; rw [List.length_eq_zero_iff.1 h]; rfl
  | succ n ih =>
    intro blk h
    match blk, h with
    | b0 :: b1 :: b2 :: b3 :: rest, h =>
      simp only [List.length_cons] at h
      simp [blockWords, ih (blk := rest) (by omega)]

/-- The word `t` of a block of whole words. -/
theorem getD_blockWords (t : Nat) : ∀ {blk : List Byte}, 4 * t + 4 ≤ blk.length →
    (blockWords blk).getD t 0 =
      be32 (blk.getD (4 * t) 0) (blk.getD (4 * t + 1) 0) (blk.getD (4 * t + 2) 0) (blk.getD (4 * t + 3) 0) := by
  induction t with
  | zero =>
    intro blk h
    match blk, h with
    | b0 :: b1 :: b2 :: b3 :: rest, _ => rfl
  | succ t ih =>
    intro blk h
    match blk, h with
    | b0 :: b1 :: b2 :: b3 :: rest, h =>
      simp only [List.length_cons] at h
      have := ih (blk := rest) (by omega)
      simpa [blockWords, Nat.mul_succ] using this

@[simp] theorem length_extendSchedule (n : Nat) (w : List Word) : (extendSchedule n w).length = w.length + n := by
  induction n generalizing w with
  | zero => rfl
  | succ n ih => simp [extendSchedule, ih]; omega

/-- Extending a schedule keeps the words it has. -/
theorem getD_extendSchedule_of_lt (n : Nat) (w : List Word) {t : Nat} (h : t < w.length) :
    (extendSchedule n w).getD t 0 = w.getD t 0 := by
  induction n generalizing w with
  | zero => rfl
  | succ n ih =>
    rw [extendSchedule, ih _ (by simp; omega)]
    simp [List.getD_eq_getElem?_getD, List.getElem?_append_left h]

/-- Every word an extension adds is `nextWord` of the words before it. -/
theorem getD_extendSchedule_next (n : Nat) (w : List Word) {t : Nat} (h1 : w.length ≤ t) (h2 : t < w.length + n) :
    (extendSchedule n w).getD t 0 = nextWord ((extendSchedule n w).take t) := by
  induction n generalizing w with
  | zero => omega
  | succ n ih =>
    rw [extendSchedule]
    by_cases ht : t = w.length
    · subst ht
      rw [getD_extendSchedule_of_lt n _ (by simp)]
      have htake : ∀ (m : Nat) (v : List Word), (extendSchedule m v).take v.length = v := by
        intro m
        induction m with
        | zero => intro v; simp [extendSchedule]
        | succ m ihm =>
          intro v
          have := congrArg (List.take v.length) (ihm (v ++ [nextWord v]))
          rw [extendSchedule]
          simpa [List.take_take] using this
      have := congrArg (List.take w.length) (htake n (w ++ [nextWord w]))
      rw [List.take_take] at this
      simp only [List.length_append, List.length_cons, List.length_nil, List.take_left'] at this
      rw [Nat.min_eq_left (by omega)] at this
      rw [this]
      simp
    · exact ih _ (by simp; omega) (by simp; omega)

/-- The schedule of a 64-byte block has 64 words. -/
theorem length_messageSchedule {blk : List Byte} (h : blk.length = 64) : (messageSchedule blk).length = 64 := by
  simp [messageSchedule, length_blockWords 16 h]

@[simp] theorem length_roundK : roundK.length = 64 := rfl

/-- The zero-fill count of a tail of at most 55 bytes (R106). -/
theorem zeroCount_of_le {n : Nat} (h : n ≤ 55) : zeroCount n = 55 - n := by simp only [zeroCount]; omega

/-- The zero-fill count of a tail of 56 to 63 bytes (R106). -/
theorem zeroCount_of_ge {n : Nat} (h1 : 56 ≤ n) (h2 : n ≤ 63) : zeroCount n = 119 - n := by
  simp only [zeroCount]; omega

/-- The length of a padded tail (R105). -/
theorem length_pad (B : List Byte) (len : BitVec 64) : (pad B len).length = B.length + 9 + zeroCount B.length := by
  simp [pad]; omega

/-- A padded message is whole blocks (R105). -/
theorem length_pad_mod (B : List Byte) (len : BitVec 64) : (pad B len).length % 64 = 0 := by
  rw [length_pad]; simp only [zeroCount]; omega

end Sys2Proof.Machine
end

