-- ==== Sys2Proof/Laws/Decode.lean ====
section
/-! SUPPORT. The fields of an encoded command, what a decoded word's fields are, and that the three fields fix a word. -/

namespace Sys2Proof

@[simp] theorem opField_encode (i : Instr) : opField (encode i) = i.op := by
  cases i with
  | update nb => revert nb; decide
  | nop => decide
  | init => decide
  | finalize => decide

@[simp] theorem nbField_encode (i : Instr) : nbField (encode i) = i.nb := by
  cases i with
  | update nb => revert nb; decide
  | nop => decide
  | init => decide
  | finalize => decide

@[simp] theorem rsvField_encode (i : Instr) : rsvField (encode i) = 0 := by
  cases i with
  | update nb => revert nb; decide
  | nop => decide
  | init => decide
  | finalize => decide

/-- A word is its three fields (R64). -/
theorem eq_of_fields {v w : Word} (ho : opField v = opField w) (hn : nbField v = nbField w)
    (hr : rsvField v = rsvField w) : v = w := by
  simp only [opField, nbField, rsvField] at ho hn hr
  apply BitVec.eq_of_getLsbD_eq
  intro i hi
  have h1 := congrArg (fun x => x.getLsbD i) ho
  have h2 := congrArg (fun x => x.getLsbD (i - 4)) hn
  have h3 := congrArg (fun x => x.getLsbD (i - 7)) hr
  simp only [BitVec.getLsbD_extractLsb'] at h1 h2 h3
  by_cases h4 : i < 4
  · simpa [h4] using h1
  · by_cases h7 : i < 7
    · have e : 4 + (i - 4) = i := by omega
      have l : i - 4 < 3 := by omega
      simpa [e, l] using h2
    · have e : 7 + (i - 7) = i := by omega
      have l : i - 7 < 25 := by omega
      simpa [e, l] using h3

/-- What a word that decodes to a command holds (R69): RSV zero, the command's OP and NB, and a byte count it performs. -/
theorem fields_of_decode {w : Word} {i : Instr} (h : decode w = .cmd i) :
    rsvField w = 0 ∧ opField w = i.op ∧ nbField w = i.nb ∧ i.wf = true := by
  unfold decode at h
  split at h
  · cases h
  · rename_i hr
    have hr : rsvField w = 0 := by simpa using hr
    split at h
    · split at h
      · cases h; exact ⟨hr, ‹_›, rfl, by simpa [Instr.wf]⟩
      · cases h
    · split at h
      · cases h
      · rename_i hn
        have hn : nbField w = 0 := by simpa using hn
        split at h
        · cases h; exact ⟨hr, ‹_›, hn, rfl⟩
        · split at h
          · cases h; exact ⟨hr, ‹_›, hn, rfl⟩
          · split at h
            · cases h; exact ⟨hr, ‹_›, hn, rfl⟩
            · cases h

/-- What `decode` gives for a word with zero RSV and the OP and NB of a well-formed command (R69). -/
theorem decode_of_fields {w : Word} {i : Instr} (hr : rsvField w = 0) (ho : opField w = i.op) (hn : nbField w = i.nb)
    (hw : i.wf = true) : decode w = .cmd i := by
  unfold decode
  rw [hr, ho, hn]
  cases i with
  | update nb =>
    have hle : nb.toNat ≤ 4 := by simpa [Instr.wf] using hw
    simp [Instr.op, Instr.nb, hle]
  | nop => rfl
  | init => rfl
  | finalize => rfl

/-- A table word of 32 bits that decodes is a word of `decode`. -/
theorem decode_of_decodeTableWord {nbits w : Nat} {i : Instr} (h : decodeTableWord nbits w = some i) :
    decode (BitVec.ofNat 32 (w % 2 ^ nbits)) = .cmd i := by
  unfold decodeTableWord at h
  split at h
  · split at h <;> simp_all
  · cases h

end Sys2Proof
end

