-- ==== Sys2Proof/Laws/State.lean ====
section
/-! SUPPORT. The field lemmas of every update of the state: what each shared operation leaves in each field. -/

namespace Sys2Proof.Machine

variable (s : State)

@[simp] theorem retire_h : (retire s).h = s.h := rfl
@[simp] theorem retire_buf : (retire s).buf = s.buf := rfl
@[simp] theorem retire_bufsize : (retire s).bufsize = s.bufsize := rfl
@[simp] theorem retire_total : (retire s).total = s.total := rfl
@[simp] theorem retire_digest : (retire s).digest = s.digest := rfl
@[simp] theorem retire_dv : (retire s).dv = s.dv := rfl
@[simp] theorem retire_err : (retire s).err = s.err := rfl
@[simp] theorem retire_errcode : (retire s).errcode = s.errcode := rfl
@[simp] theorem retire_pending : (retire s).pending = none := rfl
@[simp] theorem retire_dataIn : (retire s).dataIn = s.dataIn := rfl
@[simp] theorem retire_schedule : (retire s).schedule = s.schedule := rfl
@[simp] theorem retire_readLog : (retire s).readLog = s.readLog := rfl

@[simp] theorem recordError_h (e : ErrName) : (recordError e s).h = s.h := rfl
@[simp] theorem recordError_buf (e : ErrName) : (recordError e s).buf = s.buf := rfl
@[simp] theorem recordError_bufsize (e : ErrName) : (recordError e s).bufsize = s.bufsize := rfl
@[simp] theorem recordError_total (e : ErrName) : (recordError e s).total = s.total := rfl
@[simp] theorem recordError_digest (e : ErrName) : (recordError e s).digest = s.digest := rfl
@[simp] theorem recordError_dv (e : ErrName) : (recordError e s).dv = false := rfl
@[simp] theorem recordError_err (e : ErrName) : (recordError e s).err = true := rfl
@[simp] theorem recordError_errcode (e : ErrName) : (recordError e s).errcode = if s.err then s.errcode else e.code := rfl
@[simp] theorem recordError_pending (e : ErrName) : (recordError e s).pending = s.pending := rfl
@[simp] theorem recordError_dataIn (e : ErrName) : (recordError e s).dataIn = s.dataIn := rfl
@[simp] theorem recordError_schedule (e : ErrName) : (recordError e s).schedule = s.schedule := rfl
@[simp] theorem recordError_readLog (e : ErrName) : (recordError e s).readLog = s.readLog := rfl

@[simp] theorem clearErrors_h : (clearErrors s).h = s.h := rfl
@[simp] theorem clearErrors_buf : (clearErrors s).buf = s.buf := rfl
@[simp] theorem clearErrors_bufsize : (clearErrors s).bufsize = s.bufsize := rfl
@[simp] theorem clearErrors_total : (clearErrors s).total = s.total := rfl
@[simp] theorem clearErrors_digest : (clearErrors s).digest = s.digest := rfl
@[simp] theorem clearErrors_dv : (clearErrors s).dv = false := rfl
@[simp] theorem clearErrors_err : (clearErrors s).err = false := rfl
@[simp] theorem clearErrors_errcode : (clearErrors s).errcode = 0 := rfl
@[simp] theorem clearErrors_pending : (clearErrors s).pending = s.pending := rfl
@[simp] theorem clearErrors_dataIn : (clearErrors s).dataIn = s.dataIn := rfl
@[simp] theorem clearErrors_schedule : (clearErrors s).schedule = s.schedule := rfl
@[simp] theorem clearErrors_readLog : (clearErrors s).readLog = s.readLog := rfl

@[simp] theorem dropTurn_h : (s.dropTurn).h = s.h := rfl
@[simp] theorem dropTurn_buf : (s.dropTurn).buf = s.buf := rfl
@[simp] theorem dropTurn_bufsize : (s.dropTurn).bufsize = s.bufsize := rfl
@[simp] theorem dropTurn_total : (s.dropTurn).total = s.total := rfl
@[simp] theorem dropTurn_digest : (s.dropTurn).digest = s.digest := rfl
@[simp] theorem dropTurn_dv : (s.dropTurn).dv = s.dv := rfl
@[simp] theorem dropTurn_err : (s.dropTurn).err = s.err := rfl
@[simp] theorem dropTurn_errcode : (s.dropTurn).errcode = s.errcode := rfl
@[simp] theorem dropTurn_pending : (s.dropTurn).pending = s.pending := rfl
@[simp] theorem dropTurn_dataIn : (s.dropTurn).dataIn = s.dataIn := rfl
@[simp] theorem dropTurn_schedule : (s.dropTurn).schedule = s.schedule.tail := rfl
@[simp] theorem dropTurn_readLog : (s.dropTurn).readLog = s.readLog := rfl

@[simp] theorem resetCore_h : (resetCore s).h = iv := rfl
@[simp] theorem resetCore_buf : (resetCore s).buf = [] := rfl
@[simp] theorem resetCore_bufsize : (resetCore s).bufsize = 0 := rfl
@[simp] theorem resetCore_total : (resetCore s).total = 0 := rfl
@[simp] theorem resetCore_digest : (resetCore s).digest = Vector.replicate 8 0 := rfl
@[simp] theorem resetCore_dv : (resetCore s).dv = false := rfl
@[simp] theorem resetCore_err : (resetCore s).err = false := rfl
@[simp] theorem resetCore_errcode : (resetCore s).errcode = 0 := rfl
@[simp] theorem resetCore_pending : (resetCore s).pending = none := rfl
@[simp] theorem resetCore_dataIn : (resetCore s).dataIn = 0 := rfl
@[simp] theorem resetCore_schedule : (resetCore s).schedule = s.schedule := rfl
@[simp] theorem resetCore_readLog : (resetCore s).readLog = s.readLog := rfl

@[simp] theorem accept_h (i : Instr) : (accept i s).h = s.h := by cases i <;> rfl
@[simp] theorem accept_buf (i : Instr) : (accept i s).buf = s.buf := by cases i <;> rfl
@[simp] theorem accept_bufsize (i : Instr) : (accept i s).bufsize = s.bufsize := by cases i <;> rfl
@[simp] theorem accept_total (i : Instr) : (accept i s).total = s.total := by cases i <;> rfl
@[simp] theorem accept_digest (i : Instr) : (accept i s).digest = s.digest := by cases i <;> rfl
@[simp] theorem accept_dv (i : Instr) : (accept i s).dv = if i = .init then false else s.dv := by cases i <;> rfl
@[simp] theorem accept_err (i : Instr) : (accept i s).err = if i = .init then false else s.err := by cases i <;> rfl
@[simp] theorem accept_errcode (i : Instr) : (accept i s).errcode = if i = .init then 0 else s.errcode := by cases i <;> rfl
@[simp] theorem accept_pending (i : Instr) : (accept i s).pending = some ⟨i, s.dataIn⟩ := by cases i <;> rfl
@[simp] theorem accept_dataIn (i : Instr) : (accept i s).dataIn = s.dataIn := by cases i <;> rfl
@[simp] theorem accept_schedule (i : Instr) : (accept i s).schedule = s.schedule := by cases i <;> rfl
@[simp] theorem accept_readLog (i : Instr) : (accept i s).readLog = s.readLog := by cases i <;> rfl

@[simp] theorem reset_h : State.reset.h = iv := rfl
@[simp] theorem reset_buf : State.reset.buf = [] := rfl
@[simp] theorem reset_bufsize : State.reset.bufsize = 0 := rfl
@[simp] theorem reset_total : State.reset.total = 0 := rfl
@[simp] theorem reset_digest : State.reset.digest = Vector.replicate 8 0 := rfl
@[simp] theorem reset_dv : State.reset.dv = false := rfl
@[simp] theorem reset_err : State.reset.err = false := rfl
@[simp] theorem reset_errcode : State.reset.errcode = 0 := rfl
@[simp] theorem reset_pending : State.reset.pending = none := rfl
@[simp] theorem reset_dataIn : State.reset.dataIn = 0 := rfl
@[simp] theorem reset_schedule : State.reset.schedule = [] := rfl
@[simp] theorem reset_readLog : State.reset.readLog = [] := rfl

/-- The operand of a pending command is the one latched with it (R76). -/
theorem operand_of_pending {p : Pending} (h : s.pending = some p) : s.operand = p.data := by
  simp [State.operand, h]

/-- BUSY is 1 exactly while a command is pending (R29). -/
theorem busy_iff : s.busy = true ↔ ∃ p, s.pending = some p := by
  simp [State.busy, Option.isSome_iff_exists]

end Sys2Proof.Machine
end

