-- ==== Sys2Proof/Laws/Memory.lean ====
section
/-! SUPPORT. The laws of the block buffer: a read after a write, the canonical form, and that canonical memories that read
alike are equal. -/

namespace Sys2Proof.Machine

namespace Memory

/-- The canonical form of a memory with a first entry. -/
theorem wf_cons {c : Host.Cell} {m : Memory} :
    wf (c :: m) ↔ (∀ d ∈ m, c.1 < d.1) ∧ c.1 < 64 ∧ c.2 ≠ unlisted ∧ wf m := by
  simp only [wf, List.pairwise_cons, List.forall_mem_cons]; tauto

/-- Below every listed address, a memory reads as unlisted. -/
theorem read_of_lt {m : Memory} {a : Nat} (h : ∀ d ∈ m, a < d.1) : m.read a = unlisted := by
  induction m with
  | nil => rfl
  | cons c m ih =>
    have hc := h c (by simp)
    simp [read, Nat.ne_of_gt hc, ih fun d hd => h d (by simp [hd])]

/-- The listed addresses after a write are the old ones and the one written. -/
theorem mem_write {m : Memory} {a : Nat} {b : Byte} {d : Host.Cell} (h : d ∈ m.write a b) :
    d ∈ m ∨ (d = (a, b) ∧ b ≠ unlisted) := by
  induction m with
  | nil =>
    simp only [write] at h
    split at h <;> simp_all
  | cons c m ih =>
    obtain ⟨k, v⟩ := c
    simp only [write] at h
    split at h
    · rcases List.mem_cons.1 h with h | h
      · simp [h]
      · rcases ih h with h | h <;> simp [h]
    · split at h <;> split at h <;> simp_all <;> tauto

/-- A write at an address of BUF keeps the canonical form. -/
theorem write_wf {m : Memory} (h : wf m) {a : Nat} (ha : a < 64) (b : Byte) : wf (m.write a b) := by
  induction m with
  | nil =>
    simp only [write]
    split
    · exact h
    · simp_all [wf]
  | cons c m ih =>
    obtain ⟨k, v⟩ := c
    obtain ⟨h1, h2, h3, h4⟩ := wf_cons.1 h
    simp only [write]
    split
    · rename_i hk
      refine wf_cons.2 ⟨fun d hd => ?_, h2, h3, ih h4⟩
      rcases mem_write hd with hd | ⟨rfl, -⟩
      · exact h1 d hd
      · exact hk
    · split
      · rename_i hk
        subst hk
        split
        · exact h4
        · exact wf_cons.2 ⟨h1, ha, ‹_›, h4⟩
      · split
        · exact h
        · rename_i hk1 hk2 hb
          refine wf_cons.2 ⟨fun d hd => ?_, ha, hb, h⟩
          have hak : a < k := by omega
          rcases List.mem_cons.1 hd with rfl | hd
          · exact hak
          · exact hak.trans (h1 d hd)

/-- Reading the byte just written gives it. -/
theorem read_write_same {m : Memory} (h : wf m) (a : Nat) (b : Byte) : (m.write a b).read a = b := by
  induction m with
  | nil => simp only [write]; split <;> simp_all [read]
  | cons c m ih =>
    obtain ⟨k, v⟩ := c
    obtain ⟨h1, -, -, h4⟩ := wf_cons.1 h
    simp only [write]
    split
    · rename_i hk; simp [read, Nat.ne_of_lt hk, ih h4]
    · split
      · rename_i hk
        subst hk
        split
        · rename_i hb; rw [hb]; exact read_of_lt h1
        · simp [read]
      · rename_i hk1 hk2
        have hak : a < k := by omega
        split
        · rename_i hb
          have := read_of_lt (m := m) (a := a) fun d hd => hak.trans (h1 d hd)
          simp [read, hk2, this, hb]
        · simp [read]

/-- A write leaves every other byte as it was. -/
theorem read_write_other {m : Memory} {a a' : Nat} (hne : a' ≠ a) (b : Byte) :
    (m.write a b).read a' = m.read a' := by
  induction m with
  | nil => simp only [write]; split <;> simp [read, hne.symm]
  | cons c m ih =>
    obtain ⟨k, v⟩ := c
    simp only [write]
    split
    · simp [read, ih]
    · split
      · rename_i hk
        subst hk
        split <;> simp [read, hne.symm]
      · split
        · rfl
        · simp [read, hne.symm]

/-- The byte at `a'` after a write at `a`. -/
theorem read_write {m : Memory} (h : wf m) (a a' : Nat) (b : Byte) :
    (m.write a b).read a' = if a' = a then b else m.read a' := by
  split
  · rename_i hk; rw [hk, read_write_same h]
  · rename_i hk; exact read_write_other hk b

/-- `MemWrite` inside BUF keeps the canonical form. -/
theorem writeBytes_wf {m : Memory} (h : wf m) {a : Nat} {bs : List Byte} (ha : a + bs.length ≤ 64) :
    wf (m.writeBytes a bs) := by
  induction bs generalizing m a with
  | nil => exact h
  | cons b bs ih =>
    simp only [List.length_cons] at ha
    exact ih (write_wf h (by omega) b) (by omega)

/-- The byte at `a'` after `MemWrite(a, |bs|, bs)`. -/
theorem read_writeBytes {m : Memory} (h : wf m) {a : Nat} {bs : List Byte} (ha : a + bs.length ≤ 64) (a' : Nat) :
    (m.writeBytes a bs).read a' =
      if a ≤ a' ∧ a' < a + bs.length then bs.getD (a' - a) 0 else m.read a' := by
  induction bs generalizing m a with
  | nil =>
    have : ¬ (a ≤ a' ∧ a' < a + ([] : List Byte).length) := by simp
    rw [if_neg this]; rfl
  | cons b bs ih =>
    simp only [List.length_cons] at ha ⊢
    have hrec : (m.writeBytes a (b :: bs)).read a' = ((m.write a b).writeBytes (a + 1) bs).read a' := rfl
    rw [hrec, ih (write_wf h (by omega) b) (by omega), read_write h]
    by_cases h1 : a' = a
    · subst h1; simp
    · by_cases h2 : a ≤ a' ∧ a' < a + (bs.length + 1)
      · have h3 : a + 1 ≤ a' ∧ a' < a + 1 + bs.length := by omega
        rw [if_pos h3, if_pos h2, show a' - a = (a' - (a + 1)) + 1 by omega, List.getD_cons_succ]
      · have h3 : ¬ (a + 1 ≤ a' ∧ a' < a + 1 + bs.length) := by omega
        rw [if_neg h3, if_neg h2, if_neg h1]

/-- Two canonical memories that read alike everywhere are equal. -/
theorem eq_of_read {m n : Memory} (hm : wf m) (hn : wf n) (h : ∀ a, m.read a = n.read a) : m = n := by
  induction m generalizing n with
  | nil =>
    cases n with
    | nil => rfl
    | cons c n =>
      obtain ⟨-, -, h3, -⟩ := wf_cons.1 hn
      have := h c.1
      simp [read] at this
      exact absurd this.symm h3
  | cons c m ih =>
    obtain ⟨c1, -, c3, c4⟩ := wf_cons.1 hm
    cases n with
    | nil =>
      have := h c.1
      simp [read] at this
      exact absurd this c3
    | cons d n =>
      obtain ⟨d1, -, d3, d4⟩ := wf_cons.1 hn
      have hkey : c.1 = d.1 := by
        rcases Nat.lt_trichotomy c.1 d.1 with hlt | heq | hgt
        · have h1 := h c.1
          rw [read_of_lt (m := d :: n) (a := c.1) (by
            intro x hx; rcases List.mem_cons.1 hx with rfl | hx
            · exact hlt
            · exact hlt.trans (d1 x hx))] at h1
          simp [read] at h1; exact absurd h1 c3
        · exact heq
        · have h1 := h d.1
          rw [read_of_lt (m := c :: m) (a := d.1) (by
            intro x hx; rcases List.mem_cons.1 hx with rfl | hx
            · exact hgt
            · exact hgt.trans (c1 x hx))] at h1
          simp [read] at h1; exact absurd h1.symm d3
      have hval : c.2 = d.2 := by
        have := h c.1
        simpa [read, hkey] using this
      have hrest : m = n := by
        refine ih c4 d4 fun a => ?_
        by_cases hac : c.1 = a
        · subst hac
          rw [read_of_lt c1, read_of_lt (hkey ▸ d1)]
        · have := h a
          simp only [read] at this
          rwa [if_neg hac, if_neg (hkey ▸ hac)] at this
      rw [hrest, Prod.ext hkey hval]

/-- The number of bytes `MemRead(a, n)` gives. -/
@[simp] theorem length_readBytes (m : Memory) (a n : Nat) : (m.readBytes a n).length = n := by simp [readBytes]

/-- The bytes `MemRead(a, n)` gives. -/
@[simp] theorem getElem_readBytes (m : Memory) (a n i : Nat) (hi : i < (m.readBytes a n).length) :
    (m.readBytes a n)[i] = m.read (a + i) := by simp [readBytes]

/-- `MemRead` of `n + 1` bytes. -/
theorem readBytes_succ (m : Memory) (a n : Nat) : m.readBytes a (n + 1) = m.readBytes a n ++ [m.read (a + n)] := by
  simp [readBytes, List.range_succ]

/-- `MemRead` reads alike from memories whose bytes agree there. -/
theorem readBytes_congr {m n : Memory} {a k : Nat} (h : ∀ i, i < k → m.read (a + i) = n.read (a + i)) :
    m.readBytes a k = n.readBytes a k := by
  apply List.ext_getElem <;> simp
  exact h

/-- `MemRead` of the bytes before the one written. -/
theorem readBytes_write_of_le (m : Memory) {a k n : Nat} (h : a + n ≤ k) (b : Byte) :
    (m.write k b).readBytes a n = m.readBytes a n :=
  readBytes_congr fun i hi => read_write_other (by omega) b

/-- A byte of a list of zeros is zero, past its end too. -/
theorem getD_zeros (n i : Nat) : (List.replicate n (0 : Byte)).getD i 0 = 0 := by
  simp only [List.getD_eq_getElem?_getD, List.getElem?_replicate]
  split <;> rfl

/-- INIT's `MemWrite(0, 64, 64 bytes of 0x00)` leaves the canonical memory that lists nothing. -/
theorem writeBytes_zeros {m : Memory} (h : wf m) : m.writeBytes 0 (List.replicate 64 0x00) = [] := by
  have hw := writeBytes_wf h (a := 0) (bs := List.replicate 64 (0 : Byte)) (by simp)
  refine eq_of_read hw (by simp [wf]) fun a => ?_
  rw [read_writeBytes h (by simp)]
  split
  · exact getD_zeros 64 (a - 0)
  · rename_i ha
    simp only [List.length_replicate] at ha
    have : m.read a = unlisted := by
      clear hw
      induction m with
      | nil => rfl
      | cons c m ih =>
        obtain ⟨-, h2, -, h4⟩ := wf_cons.1 h
        have : c.1 ≠ a := by omega
        simp [read, this, ih h4]
    rw [this]; rfl

end Memory

end Sys2Proof.Machine
end

