-- ==== Sys2Proof/Laws/Update.lean ====
section
/-! SUPPORT. What appending bytes to the message does (40_stream_commands.md R82): the fields it leaves, the bytes that stay in
the block, and the byte that completes it. -/

namespace Sys2Proof.Machine

section appendByte

variable (s : State) (b : Byte)

@[simp] theorem appendByte_digest : (appendByte s b).digest = s.digest := by unfold appendByte; split <;> rfl
@[simp] theorem appendByte_dv : (appendByte s b).dv = s.dv := by unfold appendByte; split <;> rfl
@[simp] theorem appendByte_err : (appendByte s b).err = s.err := by unfold appendByte; split <;> rfl
@[simp] theorem appendByte_errcode : (appendByte s b).errcode = s.errcode := by unfold appendByte; split <;> rfl
@[simp] theorem appendByte_pending : (appendByte s b).pending = s.pending := by unfold appendByte; split <;> rfl
@[simp] theorem appendByte_dataIn : (appendByte s b).dataIn = s.dataIn := by unfold appendByte; split <;> rfl
@[simp] theorem appendByte_schedule : (appendByte s b).schedule = s.schedule := by unfold appendByte; split <;> rfl
@[simp] theorem appendByte_readLog : (appendByte s b).readLog = s.readLog := by unfold appendByte; split <;> rfl

/-- The byte goes to index BUFSIZE whether or not it completes the block. -/
@[simp] theorem appendByte_buf : (appendByte s b).buf = s.buf.write s.bufsize.toNat b := by
  unfold appendByte; split <;> rfl

/-- BUFSIZE counts the byte modulo the block. -/
theorem appendByte_bufsize : (appendByte s b).bufsize.toNat = (s.bufsize.toNat + 1) % 64 := by
  have := s.bufsize.isLt
  unfold appendByte
  split
  · simp; omega
  · simp [BitVec.toNat_add]

/-- A byte that does not complete the block (R82). -/
theorem appendByte_of_lt (h : s.bufsize.toNat < 63) :
    appendByte s b = { s with buf := s.buf.write s.bufsize.toNat b, bufsize := s.bufsize + 1 } := by
  unfold appendByte
  rw [if_neg (by omega)]

/-- The byte that completes the block (R82): H is compressed with the 63 bytes before it and it. -/
theorem appendByte_of_full (hm : Memory.wf s.buf) (h : s.bufsize.toNat = 63) :
    appendByte s b = { s with
      buf := s.buf.write 63 b
      h := compress s.h (s.buf.readBytes 0 63 ++ [b])
      bufsize := 0
      total := s.total + 64 } := by
  unfold appendByte
  rw [if_pos (by omega), h, Memory.readBytes_succ, Memory.readBytes_write_of_le _ (by omega),
    Memory.read_write_same hm]

end appendByte

section foldl

variable (bs : List Byte) (s : State)

@[simp] theorem foldl_appendByte_digest : (bs.foldl appendByte s).digest = s.digest := by
  induction bs generalizing s <;> simp_all
@[simp] theorem foldl_appendByte_dv : (bs.foldl appendByte s).dv = s.dv := by
  induction bs generalizing s <;> simp_all
@[simp] theorem foldl_appendByte_err : (bs.foldl appendByte s).err = s.err := by
  induction bs generalizing s <;> simp_all
@[simp] theorem foldl_appendByte_errcode : (bs.foldl appendByte s).errcode = s.errcode := by
  induction bs generalizing s <;> simp_all
@[simp] theorem foldl_appendByte_pending : (bs.foldl appendByte s).pending = s.pending := by
  induction bs generalizing s <;> simp_all
@[simp] theorem foldl_appendByte_dataIn : (bs.foldl appendByte s).dataIn = s.dataIn := by
  induction bs generalizing s <;> simp_all
@[simp] theorem foldl_appendByte_schedule : (bs.foldl appendByte s).schedule = s.schedule := by
  induction bs generalizing s <;> simp_all
@[simp] theorem foldl_appendByte_readLog : (bs.foldl appendByte s).readLog = s.readLog := by
  induction bs generalizing s <;> simp_all

/-- Appending keeps BUF canonical. -/
theorem foldl_appendByte_wf (hm : Memory.wf s.buf) : Memory.wf (bs.foldl appendByte s).buf := by
  induction bs generalizing s with
  | nil => exact hm
  | cons b bs ih => exact ih _ (by rw [appendByte_buf]; exact Memory.write_wf hm (by have := s.bufsize.isLt; omega) b)

/-- BUFSIZE counts the appended bytes modulo the block. -/
theorem foldl_appendByte_bufsize :
    (bs.foldl appendByte s).bufsize.toNat = (s.bufsize.toNat + bs.length) % 64 := by
  induction bs generalizing s with
  | nil => have := s.bufsize.isLt; simp; omega
  | cons b bs ih => simp only [List.foldl_cons, ih, appendByte_bufsize, List.length_cons]; omega

/-- TOTAL stays a multiple of 64 (R24). -/
theorem foldl_appendByte_total_aligned (h : s.total.toNat % 64 = 0) :
    (bs.foldl appendByte s).total.toNat % 64 = 0 := by
  induction bs generalizing s with
  | nil => exact h
  | cons b bs ih =>
    refine ih _ ?_
    unfold appendByte
    split
    · simp only [BitVec.toNat_add, BitVec.reduceToNat]; omega
    · exact h

/-- Bytes that fit below the block's end (R82). -/
theorem foldl_appendByte_of_fits (h : s.bufsize.toNat + bs.length ≤ 63) :
    bs.foldl appendByte s = { s with
      buf := s.buf.writeBytes s.bufsize.toNat bs
      bufsize := BitVec.ofNat 6 (s.bufsize.toNat + bs.length) } := by
  induction bs generalizing s with
  | nil => simp [Memory.writeBytes]
  | cons b bs ih =>
    simp only [List.length_cons] at h
    have h1 : (s.bufsize + 1).toNat = s.bufsize.toNat + 1 := by
      rw [BitVec.toNat_add]; simp; omega
    rw [List.foldl_cons, appendByte_of_lt s b (by omega), ih _ (by simp only [h1]; omega)]
    simp only [h1, Memory.writeBytes, List.length_cons]
    congr 2
    omega

/-- Appending neither reads nor writes what belongs to the host's side of the core, nor PENDING. -/
theorem foldl_appendByte_with (p : Option Pending) (d : Word) (evs : List Event) (log : List Word) :
    bs.foldl appendByte { s with pending := p, dataIn := d, schedule := evs, readLog := log } =
      { bs.foldl appendByte s with pending := p, dataIn := d, schedule := evs, readLog := log } := by
  induction bs generalizing s with
  | nil => rfl
  | cons b bs ih =>
    have : appendByte { s with pending := p, dataIn := d, schedule := evs, readLog := log } b =
        { appendByte s b with pending := p, dataIn := d, schedule := evs, readLog := log } := by
      unfold appendByte; split <;> rfl
    rw [List.foldl_cons, this, ih, List.foldl_cons]

/-- Bytes that reach the block's end (R82): H is compressed once, with the buffered bytes and the first of them. -/
theorem foldl_appendByte_of_reaches (hw : Memory.wf s.buf) (h1 : 64 ≤ s.bufsize.toNat + bs.length)
    (h2 : bs.length ≤ 63) :
    bs.foldl appendByte s = { s with
      h := compress s.h (s.buf.readBytes 0 s.bufsize.toNat ++ bs.take (64 - s.bufsize.toNat))
      buf := (s.buf.writeBytes s.bufsize.toNat (bs.take (64 - s.bufsize.toNat))).writeBytes 0
        (bs.drop (64 - s.bufsize.toNat))
      bufsize := BitVec.ofNat 6 (s.bufsize.toNat + bs.length - 64)
      total := s.total + 64 } := by
  induction bs generalizing s with
  | nil => have := s.bufsize.isLt; simp at h1; omega
  | cons b bs ih =>
    simp only [List.length_cons] at h1 h2
    have hu := s.bufsize.isLt
    rw [List.foldl_cons]
    by_cases hq : s.bufsize.toNat = 63
    · rw [appendByte_of_full s b hw hq, foldl_appendByte_of_fits _ _ (by simp; omega)]
      have e0 : (0 : BitVec 6).toNat = 0 := rfl
      simp only [hq, e0, Memory.writeBytes, List.length_cons, List.take_succ_cons, List.take_zero, List.drop_succ_cons,
        List.drop_zero, Nat.reduceSub, Nat.zero_add]
      congr 2
      omega
    · have hb1 : (s.bufsize + 1).toNat = s.bufsize.toNat + 1 := by
        rw [BitVec.toNat_add]; simp; omega
      rw [appendByte_of_lt _ _ (by omega),
        ih _ (Memory.write_wf hw (by omega) b) (by simp only [hb1]; omega) (by omega)]
      simp only [hb1]
      have e1 : 64 - s.bufsize.toNat = (64 - (s.bufsize.toNat + 1)) + 1 := by omega
      rw [Memory.readBytes_succ, Memory.readBytes_write_of_le _ (by omega), Nat.zero_add, Memory.read_write_same hw, e1]
      simp [Memory.writeBytes]
      congr 2
      omega

/-- A byte of BUF at an index no appended byte goes to stays. -/
theorem foldl_appendByte_read_other (hw : Memory.wf s.buf) {a : Nat}
    (h : ∀ j, j < bs.length → a ≠ (s.bufsize.toNat + j) % 64) : (bs.foldl appendByte s).buf.read a = s.buf.read a := by
  induction bs generalizing s with
  | nil => rfl
  | cons b bs ih =>
    have hu := s.bufsize.isLt
    have hwf : Memory.wf (appendByte s b).buf := by rw [appendByte_buf]; exact Memory.write_wf hw (by omega) b
    rw [List.foldl_cons, ih _ hwf, appendByte_buf, Memory.read_write_other]
    · have := h 0 (by simp); omega
    · intro j hj
      have := h (j + 1) (by simpa using hj)
      rw [appendByte_bufsize]; omega

/-- A byte of BUF at the index an appended byte goes to is that byte. -/
theorem foldl_appendByte_read_same (hw : Memory.wf s.buf) (hl : bs.length ≤ 63) {j : Nat} (hj : j < bs.length) :
    (bs.foldl appendByte s).buf.read ((s.bufsize.toNat + j) % 64) = bs.getD j 0 := by
  induction bs generalizing s j with
  | nil => simp at hj
  | cons b bs ih =>
    simp only [List.length_cons] at hl hj
    have hu := s.bufsize.isLt
    have hwf : Memory.wf (appendByte s b).buf := by rw [appendByte_buf]; exact Memory.write_wf hw (by omega) b
    rw [List.foldl_cons]
    cases j with
    | zero =>
      rw [foldl_appendByte_read_other _ _ hwf, appendByte_buf]
      · rw [show (s.bufsize.toNat + 0) % 64 = s.bufsize.toNat by omega, Memory.read_write_same hw]; rfl
      · intro j hj
        rw [appendByte_bufsize]; omega
    | succ j =>
      have := ih _ hwf (by omega) (j := j) (by omega)
      rw [appendByte_bufsize] at this
      rw [show (s.bufsize.toNat + (j + 1)) % 64 = ((s.bufsize.toNat + 1) % 64 + j) % 64 by omega, this]; rfl

end foldl

end Sys2Proof.Machine
end

