-- ==== Sys2Proof/Laws/Exec.lean ====
section
/-! SUPPORT. Everything a perform step can do (40_stream_commands.md R76, R79 to R84), said once. -/

namespace Sys2Proof.Machine

/-- If a perform answers a next state, it is one of these. -/
theorem exec_cases {i : Instr} {s t : State} (h : exec i s = .next t) :
    (i = .nop ∧ t = retire s) ∨
    (i = .init ∧ t = retire { s with
      h := iv, buf := s.buf.writeBytes 0 (List.replicate 64 0x00), bufsize := 0, total := 0,
      digest := Vector.replicate 8 0 }) ∨
    (∃ nb, i = .update nb ∧ nb.toNat ≤ 4 ∧ s.err = true ∧ t = retire s) ∨
    (∃ nb, i = .update nb ∧ nb.toNat ≤ 4 ∧ s.err = false ∧
      t = retire ((lanes nb s.operand).foldl appendByte s)) ∨
    (i = .finalize ∧ s.err = true ∧ t = retire s) ∨
    (i = .finalize ∧ s.err = false ∧ t = retire { s with
      digest := sha256Final s.h (s.buf.readBytes 0 s.bufsize.toNat) (s.total.toNat + s.bufsize.toNat)
      dv := true }) := by
  cases i with
  | nop => exact .inl ⟨rfl, by simpa [exec, execNop] using h.symm⟩
  | init => exact .inr (.inl ⟨rfl, (Host.Outcome.next.inj h).symm⟩)
  | update nb =>
    simp only [exec, execUpdate] at h
    split at h
    · split at h
      · exact .inr (.inr (.inl ⟨nb, rfl, ‹_›, ‹_›, (Host.Outcome.next.inj h).symm⟩))
      · exact .inr (.inr (.inr (.inl ⟨nb, rfl, ‹_›, by simpa using ‹¬ s.err = true›,
          (Host.Outcome.next.inj h).symm⟩)))
    · cases h
  | finalize =>
    simp only [exec, execFinalize] at h
    split at h
    · exact .inr (.inr (.inr (.inr (.inl ⟨rfl, ‹_›, (Host.Outcome.next.inj h).symm⟩))))
    · exact .inr (.inr (.inr (.inr (.inr ⟨rfl, by simpa using ‹¬ s.err = true›,
        (Host.Outcome.next.inj h).symm⟩))))

/-- The perform of UPDATE where no error is recorded (R82). -/
theorem exec_update {nb : BitVec 3} {s : State} (hn : nb.toNat ≤ 4) (he : s.err = false) :
    exec (.update nb) s = .next (retire ((lanes nb s.operand).foldl appendByte s)) := by
  simp [exec, execUpdate, hn, he]

/-- The perform of FINALIZE where no error is recorded (R84). -/
theorem exec_finalize {s : State} (he : s.err = false) :
    exec .finalize s = .next (retire { s with
      digest := sha256Final s.h (s.buf.readBytes 0 s.bufsize.toNat) (s.total.toNat + s.bufsize.toNat)
      dv := true }) := by
  simp [exec, execFinalize, he]

/-- A poisoned UPDATE or FINALIZE only retires (R28). -/
theorem exec_of_err {i : Instr} {s : State} (hw : i.wf = true) (hi : i ≠ .init) (he : s.err = true) :
    exec i s = .next (retire s) := by
  cases i with
  | nop => rfl
  | init => exact absurd rfl hi
  | update nb =>
    have hn : nb.toNat ≤ 4 := by simpa [Instr.wf] using hw
    simp [exec, execUpdate, hn, he]
  | finalize => simp [exec, execFinalize, he]

/-- A well-formed command always has a perform (R116). -/
theorem exec_total {i : Instr} (hw : i.wf = true) (s : State) : ∃ t, exec i s = .next t := by
  cases i with
  | nop => exact ⟨_, rfl⟩
  | init => exact ⟨_, rfl⟩
  | update nb =>
    cases he : s.err with
    | true => exact ⟨_, exec_of_err hw (by simp) he⟩
    | false => exact ⟨_, exec_update (by simpa [Instr.wf] using hw) he⟩
  | finalize =>
    cases he : s.err with
    | true => exact ⟨_, exec_of_err hw (by simp) he⟩
    | false => exact ⟨_, exec_finalize he⟩

end Sys2Proof.Machine
end

