-- ==== Sys2Proof/Laws/PerInstr.lean ====
section
/-! SUPPORT. Per command: the three fields of its CMD word (30_encoding.md R64 to R67). -/

namespace Sys2Proof.Laws.Fields

/-- The CMD word of a command holds its OP and its NB, and RSV is 0. -/
def Statement (i : Instr) : Prop :=
  (encode i).toNat % 16 = i.op.toNat ∧ (encode i).toNat / 16 % 8 = i.nb.toNat ∧ (encode i).toNat / 128 = 0

theorem nop : Statement .nop := by unfold Statement; decide

theorem init : Statement .init := by unfold Statement; decide

theorem update (nb : BitVec 3) : Statement (.update nb) := by unfold Statement; revert nb; decide

theorem finalize : Statement .finalize := by unfold Statement; decide

end Sys2Proof.Laws.Fields
end

