-- ==== Sys2Proof/Laws/Platform.lean ====
section
/-! SUPPORT. The windows of a platform's cores do not overlap, which register an address is, and what a step of one core of a
list does to the list. -/

namespace Sys2Proof.Machine

theorem windowSlot_strictMono : StrictMono Config.windowSlot :=
  strictMono_nat_of_lt_succ fun k => by rw [Config.windowSlot]; omega

/-- An address decodes to an index in a core's window exactly where it is that register's. -/
theorem indexOfHostAddress_eq_some_iff {k a : Nat} {idx : BitVec 4} :
    indexOfHostAddress k a = some idx ↔ a = hostAddress k idx := by
  have hlt := idx.isLt
  simp only [indexOfHostAddress, hostAddress]
  constructor
  · intro h
    split at h
    · rename_i hw
      have hv := congrArg BitVec.toNat (Option.some.inj h)
      rw [BitVec.toNat_ofNat] at hv
      omega
    · cases h
  · rintro rfl
    rw [if_pos (by omega)]
    congr 1
    apply BitVec.eq_of_toNat_eq
    rw [BitVec.toNat_ofNat]
    omega

/-- A register's address names its core and its index: the windows of two cores share no address. -/
theorem hostAddress_inj {k j : Nat} {idx jdx : BitVec 4} (h : hostAddress k idx = hostAddress j jdx) : k = j ∧ idx = jdx := by
  have h1 := idx.isLt
  have h2 := jdx.isLt
  simp only [hostAddress, Config.base] at h
  have hslot : Config.windowSlot k = Config.windowSlot j := by omega
  exact ⟨windowSlot_strictMono.injective hslot, BitVec.eq_of_toNat_eq (by omega)⟩

/-- An address selects a register exactly where it is that register's and the core is one of the platform's. -/
theorem selectRegister_eq_some_iff {n a k : Nat} {idx : BitVec 4} :
    selectRegister n a = some (k, idx) ↔ k < n ∧ a = hostAddress k idx := by
  induction n with
  | zero => simp [selectRegister]
  | succ m ih =>
    rw [selectRegister]
    cases hm : indexOfHostAddress m a with
    | some jdx =>
      obtain rfl := indexOfHostAddress_eq_some_iff.mp hm
      simp only [Option.some.injEq, Prod.mk.injEq]
      constructor
      · rintro ⟨rfl, rfl⟩; exact ⟨by omega, rfl⟩
      · rintro ⟨_, h⟩; exact hostAddress_inj h
    | none =>
      simp only [ih]
      constructor
      · rintro ⟨h, e⟩; exact ⟨by omega, e⟩
      · rintro ⟨h, e⟩
        refine ⟨?_, e⟩
        by_contra hc
        obtain rfl : k = m := by omega
        rw [indexOfHostAddress_eq_some_iff.mpr e] at hm
        cases hm

/-- A core's step replaces its state in the list and leaves the others. -/
theorem onCore_next {k : Nat} {turn : State → Host.Outcome State Fault Refusal} {cores : List State} {s t : State}
    (hk : cores[k]? = some s) (ht : turn s = .next t) : onCore k turn cores = .next (cores.set k t) := by
  simp [onCore, hk, ht]

end Sys2Proof.Machine
end

