-- ==== Sys2Proof/Laws/Sha256.lean ====
section
/-! SUPPORT. The chaining of blocks, and that a byte appended to a state that stands for a message stands for the longer
message (10_state.md R21 to R24). -/

namespace Sys2Proof.Machine

/-- Blocks past the first `k` change nothing of their chaining value. -/
theorem chain_append (k : Nat) (h : Vector Word 8) {T : List Byte} (U : List Byte) (hk : 64 * k ≤ T.length) :
    chain k h (T ++ U) = chain k h T := by
  induction k generalizing h T with
  | zero => rfl
  | succ k ih =>
    rw [chain, chain, List.take_append_of_le_length (by omega), List.drop_append_of_le_length (by omega)]
    exact ih _ (by simp; omega)

/-- Chaining `j` blocks, then `k` more. -/
theorem chain_add (j k : Nat) (h : Vector Word 8) (T : List Byte) :
    chain (j + k) h T = chain k (chain j h T) (T.drop (64 * j)) := by
  induction j generalizing h T with
  | zero => simp [chain]
  | succ j ih =>
    rw [show j + 1 + k = (j + k) + 1 by omega, chain, ih, chain, List.drop_drop]
    congr 2
    omega

/-- The chaining value after one block more. -/
theorem chain_succ (k : Nat) (h : Vector Word 8) (T : List Byte) :
    chain (k + 1) h T = compress (chain k h T) ((T.drop (64 * k)).take 64) := by
  rw [chain_add k 1]; rfl

/-- A byte appended to a state that stands for `M` makes it stand for `M` and that byte. -/
theorem tracks_appendByte {M : List Byte} {s : State} (hw : Memory.wf s.buf) (h : Tracks M s) (b : Byte) :
    Tracks (M ++ [b]) (appendByte s b) := by
  obtain ⟨h1, h2, h3, h4⟩ := h
  have hb := s.bufsize.isLt
  by_cases hr : s.bufsize.toNat = 63
  · have hq : (M ++ [b]).length / 64 = M.length / 64 + 1 := by simp; omega
    have hlen : 64 * (M.length / 64) ≤ M.length := by omega
    have htail : s.buf.readBytes 0 63 ++ [b] = ((M ++ [b]).drop (64 * (M.length / 64))).take 64 := by
      rw [List.drop_append_of_le_length hlen, ← h2, hr, List.take_of_length_le (by simp)]
    rw [appendByte_of_full s b hw hr]
    refine ⟨?_, ?_, ?_, ?_⟩
    · rw [hq, chain_succ, chain_append _ _ _ hlen, ← htail, ← h1]
    · simp only [hq]
      rw [List.drop_eq_nil_of_le (by simp; omega)]; rfl
    · simp; omega
    · simp only [hq, h4]
      apply BitVec.eq_of_toNat_eq
      simp; omega
  · have hq : (M ++ [b]).length / 64 = M.length / 64 := by simp; omega
    have hlen : 64 * (M.length / 64) ≤ M.length := by omega
    have hb1 : (s.bufsize + 1).toNat = s.bufsize.toNat + 1 := by
      rw [BitVec.toNat_add]; simp; omega
    rw [appendByte_of_lt s b (by omega)]
    refine ⟨?_, ?_, ?_, ?_⟩
    · rw [hq, chain_append _ _ _ hlen, h1]
    · simp only [hq, hb1]
      rw [List.drop_append_of_le_length hlen, ← h2, Memory.readBytes_succ,
        Memory.readBytes_write_of_le _ (by omega), Nat.zero_add, Memory.read_write_same hw]
    · simp only [hb1, List.length_append, List.length_singleton]; omega
    · rw [hq]; exact h4

end Sys2Proof.Machine
end

