-- ==== Sys2Proof/Laws/Step.lean ====
section
/-! SUPPORT. Everything a step can do, said once: the issue of a word, a write at an index, and the turns. -/

namespace Sys2Proof.Machine

/-- Everything the issue of a word can do (40_stream_commands.md R75). -/
theorem issue_cases (w : Word) (s : State) :
    (s.pending ≠ none ∧ issue w s = recordError .overrun s) ∨
    (s.pending = none ∧ decode w = .illegal ∧ issue w s = recordError .illegalCmd s) ∨
    (s.pending = none ∧ decode w = .badLength ∧ issue w s = recordError .badLength s) ∨
    (s.pending = none ∧ ∃ i, decode w = .cmd i ∧ issue w s = accept i s) := by
  unfold issue State.busy
  cases hp : s.pending with
  | some p => left; simp
  | none => cases hd : decode w <;> simp

/-- A word written to an idle core that decodes to a command is accepted. -/
theorem issue_of_decode {w : Word} {s : State} {i : Instr} (hp : s.pending = none) (hd : decode w = .cmd i) :
    issue w s = accept i s := by
  simp [issue, State.busy, hp, hd]

/-- A well-formed command's own word, written to an idle core, is accepted. -/
theorem issue_encode {s : State} {i : Instr} (hp : s.pending = none) (hw : i.wf = true) :
    issue (encode i) s = accept i s :=
  issue_of_decode hp (decode_of_fields (by simp) (by simp) (by simp) hw)

/-- The issue of a word neither reads nor writes what the outside world has fixed. -/
theorem issue_with_schedule (w : Word) (s : State) (evs : List Event) :
    issue w { s with schedule := evs } = { issue w s with schedule := evs } := by
  cases hp : s.pending with
  | some p => simp [issue, State.busy, hp, recordError]
  | none =>
    cases hd : decode w with
    | cmd i => cases i <;> simp [issue, State.busy, hp, hd, accept, clearErrors]
    | illegal => simp [issue, State.busy, hp, hd, recordError]
    | badLength => simp [issue, State.busy, hp, hd, recordError]

/-- Everything a write at an index can do (20_memory.md R48). -/
theorem regWrite_cases (idx : BitVec 4) (v : Word) (s : State) :
    (idx = 0 ∧ regWrite idx v s = issue v s) ∨ (idx = 1 ∧ regWrite idx v s = { s with dataIn := v }) ∨
    (idx ≠ 0 ∧ idx ≠ 1 ∧ regWrite idx v s = s) := by
  have h : ∀ idx : BitVec 4, (idx = 0 ∧ Reg.ofIndex idx = .cmd) ∨ (idx = 1 ∧ Reg.ofIndex idx = .dataIn) ∨
      (idx ≠ 0 ∧ idx ≠ 1 ∧ Reg.ofIndex idx ≠ .cmd ∧ Reg.ofIndex idx ≠ .dataIn) := by decide
  rcases h idx with ⟨h0, h⟩ | ⟨h0, h⟩ | ⟨h0, h1, h2, h3⟩
  · exact .inl ⟨h0, by rw [regWrite, h, writeReg]⟩
  · exact .inr (.inl ⟨h0, by rw [regWrite, h, writeReg]⟩)
  · refine .inr (.inr ⟨h0, h1, ?_⟩)
    rw [regWrite]
    cases hr : Reg.ofIndex idx <;> first | rfl | exact absurd hr h2 | exact absurd hr h3

@[simp] theorem regWrite_zero (v : Word) (s : State) : regWrite 0 v s = issue v s := rfl

@[simp] theorem regWrite_one (v : Word) (s : State) : regWrite 1 v s = { s with dataIn := v } := rfl

/-- The step of a state whose next turn is fixed. -/
theorem step_of_schedule {s : State} {ev : Event} {rest : List Event} (h : s.schedule = ev :: rest) :
    step s = takeTurn ev { s with schedule := rest } := by
  simp [step, State.nextTurn, State.dropTurn, h]

/-- The step of a state with no turn fixed is the core's. -/
theorem step_of_nil {s : State} (h : s.schedule = []) : step s = coreTurn s := by
  cases s
  simp_all [step, State.nextTurn, State.dropTurn, takeTurn]

/-- The host's write of a command's word to an idle core (R75). -/
theorem step_issue {s : State} {w : Word} {i : Instr} {rest : List Event} (hp : s.pending = none)
    (h : s.schedule = .write 0 w :: rest) (hd : decode w = .cmd i) :
    step s = .next (accept i { s with schedule := rest }) := by
  rw [step_of_schedule h, takeTurn, regWrite_zero, issue_of_decode (s := { s with schedule := rest }) hp hd]

/-- The core's turn on a pending command (R76). -/
theorem step_perform {s : State} {p : Pending} {rest : List Event} (hp : s.pending = some p)
    (h : s.schedule = .perform :: rest) : step s = exec p.cmd { s with schedule := rest } := by
  rw [step_of_schedule h, takeTurn, coreTurn]
  simp only [hp]

/-- If a step answers a next state, it is one of these turns. -/
theorem step_cases {s t : State} (h : step s = .next t) :
    (∃ idx v, s.nextTurn = .write idx v ∧ t = regWrite idx v s.dropTurn) ∨
    (∃ idx, s.nextTurn = .read idx ∧ t = { s.dropTurn with readLog := regRead idx s.dropTurn :: s.readLog }) ∨
    (s.nextTurn = .reset ∧ t = resetCore s.dropTurn) ∨
    (s.nextTurn = .perform ∧ s.pending = none ∧ t = s.dropTurn) ∨
    (∃ p, s.nextTurn = .perform ∧ s.pending = some p ∧ exec p.cmd s.dropTurn = .next t) := by
  unfold step at h
  cases hn : s.nextTurn with
  | write idx v => rw [hn] at h; exact .inl ⟨idx, v, rfl, (Host.Outcome.next.inj h).symm⟩
  | read idx => rw [hn] at h; exact .inr (.inl ⟨idx, rfl, (Host.Outcome.next.inj h).symm⟩)
  | reset => rw [hn] at h; exact .inr (.inr (.inl ⟨rfl, (Host.Outcome.next.inj h).symm⟩))
  | perform =>
    rw [hn] at h
    simp only [takeTurn, coreTurn, dropTurn_pending] at h
    cases hp : s.pending with
    | none => rw [hp] at h; exact .inr (.inr (.inr (.inl ⟨rfl, rfl, (Host.Outcome.next.inj h).symm⟩)))
    | some p => rw [hp] at h; exact .inr (.inr (.inr (.inr ⟨p, rfl, rfl, h⟩)))

@[simp] theorem runSteps_zero (s : State) : runSteps 0 s = .next s := rfl

/-- A run of one step more. -/
theorem runSteps_succ {n : Nat} {s t : State} (h : step s = .next t) : runSteps (n + 1) s = runSteps n t := by
  simp [runSteps, h]

/-- A run that goes on starts with a step that goes on. -/
theorem step_of_runSteps {n : Nat} {s u : State} (h : runSteps (n + 1) s = .next u) :
    ∃ t, step s = .next t ∧ runSteps n t = .next u := by
  cases hs : step s with
  | next t => exact ⟨t, rfl, runSteps_succ hs ▸ h⟩
  | fault r => simp [runSteps, hs] at h
  | refused r => simp [runSteps, hs] at h

/-- A run continued. -/
theorem runSteps_add {m n : Nat} {s t : State} (h : runSteps m s = .next t) : runSteps (m + n) s = runSteps n t := by
  induction m generalizing s with
  | zero => rw [runSteps_zero] at h; cases h; simp
  | succ m ih =>
    obtain ⟨u, hs, hr⟩ := step_of_runSteps h
    rw [show m + 1 + n = (m + n) + 1 by omega, runSteps_succ hs, ih hr]

/-- A command written to an idle core and performed at once: two steps, the issue and the perform. -/
theorem runSteps_command {s t : State} {i : Instr} {rest : List Event} (hw : i.wf = true) (hp : s.pending = none)
    (h : s.schedule = .write 0 (encode i) :: .perform :: rest)
    (he : exec i (accept i { s with schedule := rest }) = .next t) : runSteps 2 s = .next t := by
  have hd : decode (encode i) = .cmd i := decode_of_fields (by simp) (by simp) (by simp) hw
  have h2 : step (accept i { s with schedule := .perform :: rest }) = .next t := by
    rw [step_perform (p := ⟨i, s.dataIn⟩) (rest := rest) (by simp) (by simp)]
    rw [← he]; congr 1; cases i <;> rfl
  rw [runSteps_succ (step_issue hp h hd), runSteps_succ h2, runSteps_zero]

end Sys2Proof.Machine
end

