-- ==== Sys2Proof/Tests/Slice0.lean ====
section
/-! SUPPORT. The model's own tests: ill-formed terms, decoding of words written out from the encoding, one step of each command
against 95_test_vectors.md, and a witness that meets the hypotheses of each statement of Certificates/Slice0. -/

namespace Sys2Proof.Tests

open Sys2Proof.Machine

set_option Elab.async false

/-! ### Small states -/

/-- The state after reset with some turns fixed. -/
def withTurns (evs : List Event) : State := { State.reset with schedule := evs }

/-- The state after reset with a command issued. -/
def issued (i : Instr) (d : Word) : State := { State.reset with pending := some ⟨i, d⟩ }

/-- "abc" in the buffer (95_test_vectors.md D-U4). -/
def abcState : State := { State.reset with buf := [(0, 0x61), (1, 0x62), (2, 0x63)], bufsize := 3 }

/-- An ILLEGAL_CMD recorded (D-D12). -/
def errState : State := { State.reset with err := true, errcode := 1 }

/-- A digest that a FINALIZE left, standing for "abc". -/
def digestState : State := { abcState with digest := #v[1, 2, 3, 4, 5, 6, 7, 8], dv := true }

/-- The first 63 bytes of P4's message are in the buffer (D-U6): "abc" and the bytes 0x00 to 0x3b. -/
def fullState : State :=
  { State.reset with buf := Memory.writeBytes [] 0 ([0x61, 0x62, 0x63] ++ (List.range 60).map (BitVec.ofNat 8)), bufsize := 63 }

/-- What an outcome's next state answers, where there is one. -/
def nextState? (o : Host.Outcome State Fault Refusal) : Option State :=
  match o with
  | .next t => some t
  | .fault _ => none
  | .refused _ => none

/-! ### WellFormed -/

theorem test_wf_refuses_five : Instr.wf (.update 5) = false := by decide
theorem test_wf_refuses_six : Instr.wf (.update 6) = false := by decide
theorem test_wf_refuses_seven : Instr.wf (.update 7) = false := by decide
theorem test_wf_admits_the_commands :
    [Instr.nop, .init, .update 0, .update 1, .update 2, .update 3, .update 4, .finalize].all Instr.wf = true := by decide

/-! ### Decode: words written out from R64 and R65 as RSV, NB, OP (D-D1 to D-D21) -/

theorem test_decode_nop : decode 0b0000000000000000000000000_000_0000 = .cmd .nop := by decide
theorem test_decode_init : decode 0b0000000000000000000000000_000_0001 = .cmd .init := by decide
theorem test_decode_update_0 : decode 0b0000000000000000000000000_000_0010 = .cmd (.update 0) := by decide
theorem test_decode_update_4 : decode 0b0000000000000000000000000_100_0010 = .cmd (.update 4) := by decide
theorem test_decode_finalize : decode 0b0000000000000000000000000_000_0011 = .cmd .finalize := by decide
theorem test_decode_bad_length : [0x52, 0x62, 0x72].map decode = [.badLength, .badLength, .badLength] := by decide
theorem test_decode_illegal :
    [0x4, 0xf, 0x10, 0x11, 0x13, 0x80, 0x82, 0x80000000, 0x80000052, 0xffffffff].all
      (fun w => decode w = .illegal) = true := by decide
theorem test_encode :
    [Instr.nop, .init, .update 1, .update 2, .update 3, .finalize].map encode = [0x0, 0x1, 0x12, 0x22, 0x32, 0x3] := by decide
theorem test_table_word : decodeTableWord 32 0x42 = some (.update 4) ∧ decodeTableWord 32 0x52 = none := by decide

/-! ### One step of each command, with the results of 95_test_vectors.md -/

/-- D-D1: NOP, from a busy state with DV = 1 and three bytes buffered. -/
theorem test_nop_leaves_status :
    (nextState? (exec .nop { digestState with pending := some ⟨.nop, 0⟩ })).map State.status = some 0x302 := by decide
/-- D-E3: NOP is performed while ERR = 1. -/
theorem test_nop_while_poisoned :
    (nextState? (exec .nop { errState with pending := some ⟨.nop, 0⟩ })).map State.status = some 0x14 := by decide
/-- R80: INIT empties the buffer and clears DIGEST; DATA_IN stays. -/
theorem test_init_starts_over :
    (nextState? (exec .init { digestState with dv := false, dataIn := 7, pending := some ⟨.init, 7⟩ })) =
      some { State.reset with dataIn := 7 } := by decide
/-- D-E1: an OVERRUN recorded while the INIT was pending is still there after its perform. -/
theorem test_init_keeps_overrun :
    (nextState? (exec .init { issued .init 0 with err := true, errcode := 3 })).map State.status = some 0x34 := by decide
/-- D-U1 to D-U3: two bytes after 0xab, the low lanes ignored. -/
theorem test_update_two_lanes :
    (nextState? (exec (.update 2) { issued (.update 2) 0x11223344 with buf := [(0, 0xab)], bufsize := 1 })).map
      (fun t => (t.buf, t.status, t.total)) = some ([(0, 0xab), (1, 0x11), (2, 0x22)], 0x300, 0) := by decide
/-- D-U7 with D-C4: the 64th byte compresses the block and three bytes start the next one. -/
theorem test_update_completes_a_block :
    (nextState? (exec (.update 4) { fullState with pending := some ⟨.update 4, 0x3c3d3e3f⟩ })).map
      (fun t => (t.h, t.buf.readBytes 0 3, t.status, t.total)) =
      some (#v[0x9624da8e, 0xaaf126c0, 0x04adcfae, 0x42a572a8, 0x7764ecf6, 0x39469e46, 0xf078ac71, 0x07086032],
        [0x3d, 0x3e, 0x3f], 0x300, 0x40) := by decide +kernel
/-- D-H2 (V-S1): the digest of "abc". -/
theorem test_finalize_abc :
    (nextState? (exec .finalize { abcState with pending := some ⟨.finalize, 0⟩ })).map (fun t => (t.digest, t.status)) =
      some (#v[0xba7816bf, 0x8f01cfea, 0x414140de, 0x5dae2223, 0xb00361a3, 0x96177a9c, 0xb410ff61, 0xf20015ad], 0x302) := by
  decide +kernel
/-- D-E5: FINALIZE while ERR = 1 has no effect. -/
theorem test_finalize_while_poisoned :
    (nextState? (exec .finalize { errState with pending := some ⟨.finalize, 0⟩ })) = some errState := by decide

/-! ### The port (D-D, D-E and D-R tables) -/

theorem test_issue_status :
    [0x0, 0x1, 0x42, 0x3, 0x52, 0x4, 0x80000052].map (fun w => (issue w State.reset).status) =
      [0x1, 0x1, 0x1, 0x1, 0x24, 0x14, 0x14] := by decide
theorem test_overrun_beats_illegal : (issue 4 (issue 1 State.reset)).status = 0x35 := by decide
theorem test_first_error_wins : (issue 0x52 (issue 4 State.reset)).status = 0x14 := by decide
theorem test_error_clears_dv_and_keeps_digest :
    (issue 0xf digestState).status = 0x314 ∧ regRead 8 (issue 0xf digestState) = 1 := by decide
theorem test_data_in_reads_back :
    regRead 1 (regWrite 1 0xdeadbeef State.reset) = 0xdeadbeef ∧ regRead 0 (regWrite 1 0xdeadbeef State.reset) = 0 := by decide
theorem test_read_only_writes_are_ignored :
    ([2, 3, 4, 5, 6, 7, 8, 9, 10, 11, 12, 13, 14, 15] : List (BitVec 4)).all
      (fun i => regWrite i 0xffffffff digestState = digestState) = true := by decide
/-- D-R4: a reset discards the pending FINALIZE. -/
theorem test_reset_discards_pending :
    nextState? (step { issued .finalize 0 with schedule := [.reset] }) = some State.reset := by decide

/-! ### A placed word runs in the very next step -/

/-- D-N4 (D-H1): FINALIZE right after reset gives the digest of the empty message. -/
theorem test_placed_finalize :
    (nextState? (step (State.reset.withFetchWord 32 3))).map (fun t => (t.digest, t.status)) =
      some (#v[0xe3b0c442, 0x98fc1c14, 0x9afbf4c8, 0x996fb924, 0x27ae41e4, 0x649b934c, 0xa495991b, 0x7852b855], 0x2) := by
  decide +kernel
/-- D-D9: a placed word that is no command records its error. -/
theorem test_placed_bad_length :
    (nextState? (step (State.reset.withFetchWord 32 0x52))).map State.status = some 0x24 := by decide

/-! ### Padding and the digest function (D-P, D-C tables) -/

theorem test_pad_55 : pad (List.replicate 55 0x61) 0x1b8 = List.replicate 55 0x61 ++ [0x80, 0, 0, 0, 0, 0, 0, 0x01, 0xb8] := by decide
theorem test_pad_lengths : [0, 55, 56, 63].map (fun n => (pad (List.replicate n 0x61) 0).length) = [64, 64, 128, 128] := by decide
theorem test_length_wraps : lengthField (2 ^ 61) = 0 := by decide
theorem test_compress_zero_block :
    compress (Vector.replicate 8 0) (List.replicate 64 0) =
      #v[0x7ca51614, 0x425c3ba8, 0xce54dd2f, 0xc2020ae7, 0xb6e574d1, 0x98136d0f, 0xae7e26cc, 0xbf0be7a6] := by decide +kernel

/-! ### Witnesses: the invariants hold of concrete states -/

theorem witness_inv_abc : CoreInv abcState where
  buf_wf := by decide
  total_aligned := by decide
  errcode_defined := by decide
  errcode_none := by decide
  poisoned_not_valid := by decide
  pending_wf := by intro p h; cases h
  init_not_valid := by intro p h; cases h
  no_digest := by intro _ _ _; decide

theorem witness_inv_err : CoreInv errState where
  buf_wf := by decide
  total_aligned := by decide
  errcode_defined := by decide
  errcode_none := by decide
  poisoned_not_valid := by decide
  pending_wf := by intro p h; cases h
  init_not_valid := by intro p h; cases h
  no_digest := by intro _ h _; cases h

/-- A pending command, a digest and a block about to be completed. -/
def busyState : State :=
  { fullState with pending := some ⟨.update 4, 0x3c3d3e3f⟩, digest := #v[1, 2, 3, 4, 5, 6, 7, 8], dv := true }

theorem witness_inv_busy : CoreInv busyState where
  buf_wf := by decide +kernel
  total_aligned := by decide
  errcode_defined := by decide
  errcode_none := by decide
  poisoned_not_valid := by decide
  pending_wf := by intro p h; cases h; decide
  init_not_valid := by intro p h hi; cases h; cases hi
  no_digest := by intro h; cases h

/-- A state keeps the invariant when only the host's fields change. -/
theorem inv_withTurns {s : State} (h : CoreInv s) (evs : List Event) : CoreInv { s with schedule := evs } :=
  ⟨h.1, h.2, h.3, h.4, h.5, h.6, h.7, h.8⟩

theorem witness_tracks_abc : Tracks [0x61, 0x62, 0x63] abcState := ⟨by decide, by decide, by decide, by decide⟩

/-- Just past a block boundary: 64 zero bytes folded into H, none buffered (D-C1). -/
theorem witness_tracks_one_block :
    Tracks (List.replicate 64 0)
      { State.reset with
        h := #v[0xda5698be, 0x17b9b469, 0x62335799, 0x779fbeca, 0x8ce5d491, 0xc0d26243, 0xbafef9ea, 0x1837a9d8], total := 64 } :=
  ⟨by decide +kernel, by decide, by decide, by decide⟩

/-! ### Witnesses: each statement's hypotheses, met together -/

theorem witness_LegalWords : (0x52 : Word) ∉ [0x0, 0x1, 0x2, 0x12, 0x22, 0x32, 0x42, 0x3] ∧
    (4 ≤ (0x4 : Word).toNat % 16 ∧ 4 ≤ (0xffffffff : Word).toNat % 16 ∧ State.reset.pending = none ∧ State.reset.err = false) := by
  decide
theorem witness_RejectedWords : State.reset.pending = none ∧ (0x80 : Word).toNat ≥ 2 ^ 7 ∧ 4 ≤ (0x4 : Word).toNat % 16 ∧
    ((0x10 : Word).toNat % 16 ≠ 2 ∧ (0x10 : Word).toNat / 16 % 8 ≠ 0) := by decide
theorem witness_TableRows : decode 0x42 = .cmd (.update 4) ∧
    (0x42 : Word) &&& (Instr.update 0).tableMask = (Instr.update 0).tableMatch ∧
    (0x42 : Word) &&& (Instr.update 4).tableMask = (Instr.update 4).tableMatch := by decide
theorem witness_DecodesExactly : decode 0x42 = .cmd (.update 4) ∧ (Instr.update 4).wf = true ∧ encode (.update 4) = 0x42 := by decide
theorem witness_Read : (withTurns [.read 0]).schedule = [.read 0] ∧ (withTurns [.read 15]).schedule = [.read 15] := by decide
theorem witness_Write : (withTurns [.write 0 1]).schedule = [.write 0 1] ∧ (withTurns [.write 1 1]).schedule = [.write 1 1] ∧
    (withTurns [.write 2 1]).schedule = [.write 2 1] ∧ (withTurns [.write 15 1]).schedule = [.write 15 1] := by decide
theorem witness_CmdWrite :
    ({ issued .init 0 with schedule := [.write 0 0] } : State).pending ≠ none ∧
    ((withTurns [.write 0 4]).pending = none ∧ decode 4 = .illegal) ∧
    ((withTurns [.write 0 0x72]).pending = none ∧ decode 0x72 = .badLength) ∧
    ((withTurns [.write 0 0x42]).pending = none ∧ decode 0x42 = .cmd (.update 4) ∧ Instr.update 4 ≠ .init) ∧
    ((withTurns [.write 0 1]).pending = none ∧ decode 1 = .cmd .init) := by decide
theorem witness_CmdWrite_next : exec .init (issued .init 0) = .next State.reset ∧
    step (withTurns [.write 0 1]) = .next (issued .init 0) := ⟨rfl, rfl⟩
theorem witness_StepRuns :
    (withTurns [.write 0 0x42]).schedule = [.write 0 0x42] ∧ (withTurns [.write 0 0x42]).pending = none ∧
    ({ issued .nop 0 with schedule := [.perform] } : State).pending = some ⟨.nop, 0⟩ ∧ (issued .nop 0).schedule = [] ∧
    (withTurns [.perform]).pending = none ∧ State.reset.schedule = [] := by decide
theorem witness_PlacedWord : decodeTableWord 32 0 = some .nop ∧ decodeTableWord 32 0x42 = some (.update 4) := by decide
theorem witness_OnlyPerformOrReset :
    (issued .nop 3).pending = some ⟨.nop, 3⟩ ∧ step (issued .nop 3) = .next State.reset ∧
    step { issued .nop 3 with schedule := [.read 2] } = .next { issued .nop 3 with readLog := [1] } := ⟨rfl, rfl, rfl⟩
theorem witness_FirstError :
    State.reset.err = false ∧ errState.err = true ∧ ({ errState with pending := some ⟨.nop, 0⟩ } : State).pending ≠ none ∧
    decode 4 = .illegal ∧ errState.nextTurn ≠ .reset ∧ errState.nextTurn ≠ .write 0 (encode .init) := by decide
theorem witness_FirstError_next : step errState = .next errState := rfl
theorem witness_OnlyInitOrReset :
    errState.err = true ∧ step { errState with schedule := [.reset] } = .next State.reset ∧ State.reset.err = false ∧
    step { errState with schedule := [.write 0 1] } = .next (issued .init 0) := ⟨rfl, rfl, rfl, rfl⟩
theorem witness_OnlyFinalizeSetsDv :
    (nextState? (step { abcState with pending := some ⟨.finalize, 0⟩ })).map State.dv = some true ∧ abcState.dv = false ∧
    (nextState? (step { digestState with schedule := [.write 0 4] })).map State.dv = some false ∧
    (nextState? (step { digestState with schedule := [.write 0 1] })).map State.dv = some false ∧
    (nextState? (step { digestState with schedule := [.reset] })).map State.dv = some false ∧ digestState.dv = true := by
  decide +kernel
theorem witness_ChainingState :
    (nextState? (step busyState)).map State.total = some 64 ∧ (nextState? (step { busyState with schedule := [.reset] })).map State.h = some iv ∧
    (nextState? (step State.reset)).map State.h = some iv := by decide +kernel
theorem witness_HostAccess :
    ({ busyState with schedule := [.write 1 5] } : State).nextTurn = .write 1 5 ∧ busyState.pending ≠ none ∧
    step { busyState with schedule := [.write 1 5] } = .next { busyState with dataIn := 5 } := ⟨rfl, by decide, rfl⟩
theorem witness_Nop :
    (withTurns [.write 0 0, .perform]).pending = none ∧ (withTurns [.write 0 0, .perform]).schedule = [.write 0 0, .perform] ∧
    (issued .init 0).pending ≠ none ∧ (issued .init 0).err = false ∧ (0x10 : Word).toNat % 16 = 0 ∧ (0x10 : Word) ≠ 0 := by decide
theorem witness_InitPerform : Memory.wf digestState.buf := by decide
theorem witness_InitIssue :
    Memory.wf digestState.buf ∧ digestState.pending = none ∧
    ({ digestState with schedule := [.write 0 (encode .init), .perform] } : State).schedule =
      [.write 0 (encode .init), .perform] := by decide
theorem witness_OverrunDuringInit :
    Memory.wf digestState.buf ∧ digestState.pending = none ∧
    ({ digestState with schedule := [.write 0 (encode .init), .write 0 1, .perform] } : State).schedule =
      .write 0 (encode .init) :: .write 0 1 :: .perform :: [] := by decide
/-- The smallest and the largest of the updates that complete no block. -/
theorem witness_UpdateBuffers :
    (issued (.update 0) 0).err = false ∧ State.reset.bufsize.toNat + (0 : BitVec 3).toNat ≤ 63 ∧
    ({ State.reset with bufsize := 59 } : State).bufsize.toNat + (4 : BitVec 3).toNat = 63 ∧ (4 : BitVec 3).toNat ≤ 4 := by decide
/-- The smallest (60 buffered bytes) and the largest of the updates that complete one. -/
theorem witness_UpdateCompresses :
    Memory.wf busyState.buf ∧ busyState.pending = some ⟨.update 4, 0x3c3d3e3f⟩ ∧ busyState.err = false ∧
    64 ≤ busyState.bufsize.toNat + (4 : BitVec 3).toNat ∧ (4 : BitVec 3).toNat ≤ 4 ∧
    ({ busyState with bufsize := 60 } : State).bufsize.toNat + (4 : BitVec 3).toNat = 64 := by decide +kernel
theorem witness_UpdateFrame :
    Memory.wf busyState.buf ∧ busyState.pending = some ⟨.update 4, 0x3c3d3e3f⟩ ∧ (nextState? (exec (.update 4) busyState)).isSome = true ∧
    (∀ j, j < (4 : BitVec 3).toNat → 3 ≠ (busyState.bufsize.toNat + j) % 64) ∧
    (nextState? (exec (.update 4) { errState with pending := some ⟨.update 4, 0⟩ })).isSome = true := by decide +kernel
theorem witness_UpdateLanes :
    (4 : BitVec 3).toNat ≤ 4 ∧ State.reset.pending = none ∧
    (∀ i, i < 32 → 32 - 8 * (3 : BitVec 3).toNat ≤ i → (0x61626300 : Word).getLsbD i = (0x616263ff : Word).getLsbD i) ∧
    (0x61626300 : Word) ≠ 0x616263ff := by decide
theorem witness_RewritingDataIn :
    (issued (.update 2) 0x61620000).pending = some ⟨.update 2, 0x61620000⟩ ∧
    (nextState? (exec (.update 2) (issued (.update 2) 0x61620000))).isSome = true := by decide
theorem witness_Poisoned : errState.err = true ∧ (0 : BitVec 3).toNat ≤ 4 ∧ (4 : BitVec 3).toNat ≤ 4 := by decide
theorem witness_FiveToSeven : 4 < (5 : BitVec 3).toNat ∧ 4 < (7 : BitVec 3).toNat := by decide
theorem witness_Finalize : abcState.err = false ∧ abcState.pending = none := by decide
theorem witness_PerformFrame :
    exec .nop (issued .nop 0) = .next State.reset ∧ exec .finalize { errState with pending := some ⟨.finalize, 0⟩ } = .next errState ∧
    exec (.update 0) (issued (.update 0) 0) = .next State.reset ∧ exec .init (issued .init 0) = .next State.reset := ⟨rfl, rfl, rfl, rfl⟩
theorem witness_Reset :
    ({ busyState with schedule := [.reset] } : State).schedule = [.reset] ∧ busyState.pending ≠ none := ⟨rfl, by decide⟩
theorem witness_StepKeeps : CoreInv busyState ∧ (nextState? (step busyState)).isSome = true := ⟨witness_inv_busy, by decide +kernel⟩
theorem witness_PendingIsPerformed :
    CoreInv { busyState with schedule := [.read 2, .write 0 0] } ∧ busyState.pending = some ⟨.update 4, 0x3c3d3e3f⟩ ∧
    Event.reset ∉ [Event.read 2, .write 0 0] := ⟨inv_withTurns witness_inv_busy _, rfl, by decide⟩
theorem witness_IdleStatus :
    (issued .nop 0).pending = some ⟨.nop, 0⟩ ∧ Event.reset ∉ (issued .nop 0).schedule ∧ runSteps 1 (issued .nop 0) = .next State.reset ∧
    State.reset.status.getLsbD 0 = false := ⟨rfl, by decide, rfl, by decide⟩
theorem witness_EveryLatency :
    State.reset.pending = none ∧ (Instr.update 4).wf = true ∧
    (withTurns (.write 0 (encode (.update 4)) :: (List.replicate 2 (.read 2) ++ [.perform]))).schedule =
      .write 0 (encode (.update 4)) :: (List.replicate 2 (.read 2) ++ [.perform]) := ⟨rfl, rfl, rfl⟩
theorem witness_StepTracks :
    CoreInv abcState ∧ Tracks [0x61, 0x62, 0x63] abcState ∧ step abcState = .next abcState :=
  ⟨witness_inv_abc, witness_tracks_abc, rfl⟩
theorem witness_FinalizeSha : Memory.wf abcState.buf ∧ Tracks [0x61, 0x62, 0x63] abcState ∧ abcState.err = false :=
  ⟨by decide, witness_tracks_abc, rfl⟩
theorem witness_HashSequence : CoreInv errState ∧ errState.pending = none := ⟨witness_inv_err, rfl⟩
/-- One 3-byte delivery, and the same bytes as 2 + 1 with an empty UPDATE and a NOP between. -/
theorem witness_Streaming :
    CoreInv abcState ∧ abcState.pending = none ∧ abcState.err = false ∧
    (∀ p ∈ [(⟨.update 3, 0x61626300⟩ : Pending)], p.delivers = true) ∧
    (∀ p ∈ [(⟨.update 2, 0x6162ffff⟩ : Pending), ⟨.update 0, 7⟩, ⟨.nop, 7⟩, ⟨.update 1, 0x63000000⟩], p.delivers = true) ∧
    [(⟨.update 3, 0x61626300⟩ : Pending)].flatMap Pending.payload =
      [(⟨.update 2, 0x6162ffff⟩ : Pending), ⟨.update 0, 7⟩, ⟨.nop, 7⟩, ⟨.update 1, 0x63000000⟩].flatMap Pending.payload :=
  ⟨witness_inv_abc, rfl, rfl, by decide, by decide, by decide⟩
theorem witness_UpdateAfterFinalize :
    CoreInv abcState ∧ Tracks [0x61, 0x62, 0x63] abcState ∧ abcState.pending = none ∧ abcState.err = false ∧
    ∀ p ∈ [(⟨.update 1, 0x64000000⟩ : Pending)], p.delivers = true :=
  ⟨witness_inv_abc, witness_tracks_abc, rfl, rfl, by decide⟩
/-- Two states that differ in the stale byte `BUF[3]`. -/
theorem witness_StaleBytes :
    CoreInv abcState ∧ CoreInv { abcState with buf := abcState.buf ++ [(3, 0xff)] } ∧
    SameButStale abcState { abcState with buf := abcState.buf ++ [(3, 0xff)] } ∧ step abcState = .next abcState := by
  refine ⟨witness_inv_abc, ?_, ⟨rfl, ?_⟩, rfl⟩
  · exact { witness_inv_abc with buf_wf := by decide }
  · have h : ∀ a, a < 3 → abcState.buf.read a = Memory.read (abcState.buf ++ [(3, 0xff)]) a := by decide
    exact h
theorem witness_Cores :
    [State.reset, errState][1]? = some errState ∧ step errState = .next errState := ⟨rfl, rfl⟩
theorem witness_Windows : Config.base 0 ≤ Config.base 0 ∧ Config.base 0 < Config.base 0 + 64 := by omega
/-- The last register of the second of two cores, and an address that is no register's. -/
theorem witness_HostAddress :
    [State.reset, errState][1]? = some errState ∧
    (BusAccess.read (hostAddress 1 15)).address = hostAddress 1 15 ∧
    ∀ (k : Nat) (idx : BitVec 4), k < [State.reset, errState].length → (BusAccess.read 1).address ≠ hostAddress k idx := by
  refine ⟨rfl, rfl, fun k idx _ => ?_⟩
  simp only [BusAccess.address, hostAddress, Config.base]
  omega
theorem witness_Blocks : (List.replicate 64 (0 : Byte)).length = 64 ∧ (List.replicate 55 (0 : Byte)).length ≤ 55 ∧
    56 ≤ (List.replicate 56 (0 : Byte)).length ∧ (List.replicate 63 (0 : Byte)).length ≤ 63 := by decide

end Sys2Proof.Tests
end

section
/-! PROOFS. Big-endian packing (00_scope.md R13). `be32` is the concatenation of its bytes, so its value and its inverses are
rules for `++`; the bytes of a 64-bit value are its base-256 digits. -/

namespace Sys2Proof.Machine

/-- R13's packing is concatenation, the first byte on the left. -/
theorem be32_eq_append (b0 b1 b2 b3 : Byte) : be32 b0 b1 b2 b3 = b0 ++ b1 ++ b2 ++ b3 := by
  have h := BitVec.setWidth_append_append_append_eq_shiftLeft_setWidth_or (w'''' := 32)
    (b := b0) (b' := b1) (b'' := b2) (b''' := b3)
  rw [BitVec.setWidth_eq] at h
  exact h.symm

/-- A byte appended on the right is one more base-256 digit. -/
theorem toNat_append_byte {n : Nat} (x : BitVec n) (b : Byte) : (x ++ b).toNat = x.toNat * 256 + b.toNat := by
  rw [BitVec.toNat_append, ← Nat.shiftLeft_add_eq_or_of_lt b.isLt, Nat.shiftLeft_eq]

/-- R13's formula for `be32`. -/
theorem toNat_be32 (b0 b1 b2 b3 : Byte) :
    (be32 b0 b1 b2 b3).toNat = b0.toNat * 2 ^ 24 + b1.toNat * 2 ^ 16 + b2.toNat * 2 ^ 8 + b3.toNat := by
  rw [be32_eq_append, toNat_append_byte, toNat_append_byte, toNat_append_byte]
  omega

/-- Past the last byte of a concatenation, a byte is taken from the rest. -/
theorem extractLsb'_append_byte {n : Nat} (x : BitVec n) (b : Byte) (s : Nat) :
    (x ++ b).extractLsb' (s + 8) 8 = x.extractLsb' s 8 := by
  rw [BitVec.extractLsb'_append_eq_of_le (Nat.le_add_left 8 s), Nat.add_sub_cancel]

/-- Unpacking takes the bytes off the concatenation that packing made. -/
theorem bytesBe32_be32 (b0 b1 b2 b3 : Byte) : bytesBe32 (be32 b0 b1 b2 b3) = [b0, b1, b2, b3] := by
  simp only [bytesBe32, be32_eq_append, extractLsb'_append_byte _ _ 16, extractLsb'_append_byte _ _ 8,
    extractLsb'_append_byte _ _ 0, BitVec.extractLsb'_append_eq_right, BitVec.extractLsb'_eq_self]

/-- Packing joins the neighbouring fields that unpacking cut the word into. -/
theorem be32_extractLsb' (w : Word) :
    be32 (w.extractLsb' 24 8) (w.extractLsb' 16 8) (w.extractLsb' 8 8) (w.extractLsb' 0 8) = w := by
  rw [be32_eq_append, BitVec.extractLsb'_append_extractLsb'_eq_extractLsb' (show 24 = 16 + 8 from rfl),
    BitVec.extractLsb'_append_extractLsb'_eq_extractLsb' (show 16 = 8 + 8 from rfl),
    BitVec.extractLsb'_append_extractLsb'_eq_extractLsb' (show 8 = 0 + 8 from rfl)]
  exact BitVec.extractLsb'_eq_self

/-- The byte at bit `s` is the lowest base-256 digit of the bits from `s` up. -/
theorem toNat_shiftRight_byte {n : Nat} (x : BitVec n) (s : Nat) :
    x.toNat >>> (s + 8) * 256 + (x.extractLsb' s 8).toNat = x.toNat >>> s := by
  rw [BitVec.extractLsb'_toNat, Nat.shiftRight_add, Nat.shiftRight_eq_div_pow _ 8]
  omega

/-- Reading the eight bytes most significant first goes from the bits past the top, which are 0, down to all of `v`. -/
theorem foldl_bytesBe64 (v : BitVec 64) : (bytesBe64 v).foldl (fun n b => n * 256 + b.toNat) 0 = v.toNat := by
  have top : v.toNat >>> 64 = 0 := Nat.shiftRight_eq_zero _ _ v.isLt
  have digit := toNat_shiftRight_byte v
  calc (bytesBe64 v).foldl (fun n b => n * 256 + b.toNat) 0
    _ = (bytesBe64 v).foldl (fun n b => n * 256 + b.toNat) (v.toNat >>> 64) := by rw [top]
    _ = v.toNat >>> 0 := by
      simp only [bytesBe64, List.foldl_cons, List.foldl_nil, digit 56, digit 48, digit 40, digit 32, digit 24, digit 16,
        digit 8, digit 0]
    _ = v.toNat := Nat.shiftRight_zero

/-- Settles O51, by `be32` as a concatenation and by the base-256 digits of a 64-bit value. -/
theorem packingIsBigEndian : Obligations.PackingIsBigEndian :=
  ⟨toNat_be32, bytesBe32_be32, fun w => ⟨_, _, _, _, rfl, be32_extractLsb' w⟩, foldl_bytesBe64⟩

end Sys2Proof.Machine
end

section
/-! PROOFS. The state between any two steps (10_state.md R19 to R30): what a host's write leaves, the invariant `CoreInv`,
the message a state stands for, the stale bytes of BUF, STATUS, and the platform of several cores. Each operation's rule is
proved once; a statement over every step is then one case a turn of `step_cases`. -/

namespace Sys2Proof.Machine

/-! ### What a host's write and a performed INIT leave -/

/-- A write to the port leaves the elements that only performs and resets write (R48, R57). -/
theorem regWrite_keeps_computation (idx : BitVec 4) (v : Word) (s : State) :
    (regWrite idx v s).h = s.h ∧ (regWrite idx v s).buf = s.buf ∧ (regWrite idx v s).bufsize = s.bufsize ∧
      (regWrite idx v s).total = s.total ∧ (regWrite idx v s).digest = s.digest := by
  rcases regWrite_cases idx v s with ⟨-, h⟩ | ⟨-, h⟩ | ⟨-, -, h⟩
  · rw [h]
    rcases issue_cases v s with ⟨-, h⟩ | ⟨-, -, h⟩ | ⟨-, -, h⟩ | ⟨-, i, -, h⟩ <;> simp [h]
  · simp [h]
  · simp [h]

/-- The perform of INIT from a canonical BUF leaves the one that lists nothing (R80). -/
theorem exec_init {s : State} (hw : Memory.wf s.buf) :
    exec .init s = .next (retire
      { s with h := iv, buf := [], bufsize := 0, total := 0, digest := Vector.replicate 8 0 }) := by
  rw [exec, execInit, Memory.writeBytes_zeros hw]

/-! ### The invariant -/

/-- The invariant speaks of none of the host's elements. -/
theorem coreInv_with_host {s : State} (h : CoreInv s) (d : Word) (evs : List Event) (log : List Word) :
    CoreInv { s with dataIn := d, schedule := evs, readLog := log } := { h with }

/-- Recording an error clears DV, and the code recorded is a defined one that is not NONE (R125, R126). -/
theorem coreInv_recordError {s : State} (h : CoreInv s) (e : ErrName) : CoreInv (recordError e s) := by
  have hcode : e.code.toNat ≤ 3 ∧ e.code ≠ 0 := by cases e <;> decide
  exact { h with
    errcode_defined := by
      rw [recordError_errcode]; split
      · exact h.errcode_defined
      · exact hcode.1
    errcode_none := by
      cases he : s.err with
      | true => simpa [he] using h.errcode_none
      | false => simpa [he] using hcode.2
    poisoned_not_valid := fun _ => rfl
    init_not_valid := fun _ _ _ => rfl
    no_digest := fun _ herr => by cases herr }

/-- Accepting a command: INIT clears DV and the error record first, every other command leaves them (R75). -/
theorem coreInv_accept {s : State} (h : CoreInv s) (hp : s.pending = none) {i : Instr} (hi : i.wf = true) :
    CoreInv (accept i s) where
  buf_wf := by simpa using h.buf_wf
  total_aligned := by simpa using h.total_aligned
  errcode_defined := by
    rw [accept_errcode]; split
    · decide
    · exact h.errcode_defined
  errcode_none := by
    rw [accept_err, accept_errcode]; split
    · simp
    · exact h.errcode_none
  poisoned_not_valid := by
    rw [accept_err, accept_dv]; split
    · simp
    · exact h.poisoned_not_valid
  pending_wf := by simpa using hi
  init_not_valid := by simp +contextual
  no_digest := by
    intro hdv herr hinit
    have hne : i ≠ .init := hinit ⟨i, s.dataIn⟩ (accept_pending s i)
    rw [accept_digest]
    exact h.no_digest (by simpa [hne] using hdv) (by simpa [hne] using herr) (by simp [hp])

/-- The issue of a word keeps the invariant, whether it is accepted or records an error (R75). -/
theorem coreInv_issue {s : State} (h : CoreInv s) (w : Word) : CoreInv (issue w s) := by
  rcases issue_cases w s with ⟨-, hw⟩ | ⟨-, -, hw⟩ | ⟨-, -, hw⟩ | ⟨hp, i, hd, hw⟩ <;> rw [hw]
  · exact coreInv_recordError h _
  · exact coreInv_recordError h _
  · exact coreInv_recordError h _
  · obtain ⟨-, -, -, hi⟩ := fields_of_decode hd
    exact coreInv_accept h hp hi

/-- A write to the port keeps the invariant. -/
theorem coreInv_regWrite {s : State} (h : CoreInv s) (idx : BitVec 4) (v : Word) : CoreInv (regWrite idx v s) := by
  rcases regWrite_cases idx v s with ⟨-, hw⟩ | ⟨-, hw⟩ | ⟨-, -, hw⟩ <;> rw [hw]
  · exact coreInv_issue h v
  · exact coreInv_with_host h v _ _
  · exact h

/-- Settles O36: every clause is read off the reset values (R42). -/
theorem resetMeetsTheInvariant : Obligations.ResetMeetsTheInvariant where
  buf_wf := by decide
  total_aligned := by decide
  errcode_defined := by decide
  errcode_none := by decide
  poisoned_not_valid := by decide
  pending_wf := by simp
  init_not_valid := by simp
  no_digest := fun _ _ _ => rfl

/-- A reset at any point gives the core's elements their values of R42. -/
theorem coreInv_resetCore (s : State) : CoreInv (resetCore s) :=
  coreInv_with_host resetMeetsTheInvariant _ _ _

/-- Retiring a command other than INIT: with INIT alone DIGEST may still wait to be cleared. -/
theorem coreInv_retire {s : State} (h : CoreInv s) (hp : ∀ p, s.pending = some p → p.cmd ≠ .init) :
    CoreInv (retire s) :=
  { h with
    pending_wf := by simp
    init_not_valid := by simp
    no_digest := fun hdv herr _ => h.no_digest hdv herr hp }

/-- What a performed INIT leaves: an empty BUF and a DIGEST of 0, whatever DV, ERR and ERRCODE are (R80). -/
theorem coreInv_startOver {s : State} (h : CoreInv s) :
    CoreInv (retire { s with h := iv, buf := [], bufsize := 0, total := 0, digest := Vector.replicate 8 0 }) :=
  { h with
    buf_wf := resetMeetsTheInvariant.buf_wf
    total_aligned := rfl
    pending_wf := by simp
    init_not_valid := by simp
    no_digest := fun _ _ _ => rfl }

/-- Appending bytes keeps BUF canonical and TOTAL aligned, and leaves what the other clauses speak of (R82). -/
theorem coreInv_foldl_appendByte {s : State} (h : CoreInv s) (bs : List Byte) : CoreInv (bs.foldl appendByte s) where
  buf_wf := foldl_appendByte_wf bs s h.buf_wf
  total_aligned := foldl_appendByte_total_aligned bs s h.total_aligned
  errcode_defined := by simpa using h.errcode_defined
  errcode_none := by simpa using h.errcode_none
  poisoned_not_valid := by simpa using h.poisoned_not_valid
  pending_wf := by simpa using h.pending_wf
  init_not_valid := by simpa using h.init_not_valid
  no_digest := by simpa using h.no_digest

/-- The digest and DV that a FINALIZE writes where no error is recorded (R84). -/
theorem coreInv_with_digest {s : State} (h : CoreInv s) (herr : s.err = false)
    (hp : ∀ p, s.pending = some p → p.cmd ≠ .init) (d : Vector Word 8) : CoreInv { s with digest := d, dv := true } :=
  { h with
    poisoned_not_valid := fun h1 => by rw [herr] at h1; cases h1
    init_not_valid := fun p h1 h2 => absurd h2 (hp p h1)
    no_digest := fun hdv => by cases hdv }

/-- The perform of the pending command keeps the invariant. -/
theorem coreInv_exec {s t : State} {p : Pending} (h : CoreInv s) (hp : s.pending = some p)
    (ht : exec p.cmd s = .next t) : CoreInv t := by
  have hne : p.cmd ≠ .init → ∀ q, s.pending = some q → q.cmd ≠ .init := by simp [hp]
  rcases exec_cases ht with ⟨hi, rfl⟩ | ⟨hi, -⟩ | ⟨nb, hi, -, -, rfl⟩ | ⟨nb, hi, -, -, rfl⟩ | ⟨hi, -, rfl⟩ |
    ⟨hi, herr, rfl⟩
  · exact coreInv_retire h (hne (by simp [hi]))
  · rw [hi, exec_init h.buf_wf] at ht
    obtain rfl := Host.Outcome.next.inj ht
    exact coreInv_startOver h
  · exact coreInv_retire h (hne (by simp [hi]))
  · exact coreInv_retire (coreInv_foldl_appendByte h _) (by simpa using hne (by simp [hi]))
  · exact coreInv_retire h (hne (by simp [hi]))
  · exact coreInv_retire (coreInv_with_digest h herr (hne (by simp [hi])) _) (hne (by simp [hi]))

/-- Settles O37: the invariant's rule for the operation that each turn is. -/
theorem stepKeepsTheInvariant : Obligations.StepKeepsTheInvariant := by
  intro s t h hstep
  have hdrop : CoreInv s.dropTurn := coreInv_with_host h _ _ _
  rcases step_cases hstep with ⟨idx, v, -, rfl⟩ | ⟨idx, -, rfl⟩ | ⟨-, rfl⟩ | ⟨-, -, rfl⟩ | ⟨p, -, hp, ht⟩
  · exact coreInv_regWrite hdrop idx v
  · exact coreInv_with_host hdrop _ _ _
  · exact coreInv_resetCore _
  · exact hdrop
  · exact coreInv_exec hdrop hp ht

/-! ### The message a state stands for -/

/-- What a state stands for is said by H, BUF, BUFSIZE and TOTAL alone. -/
theorem tracks_of_eq {M : List Byte} {s t : State} (h : Tracks M s) (hh : t.h = s.h) (hbuf : t.buf = s.buf)
    (hsize : t.bufsize = s.bufsize) (htotal : t.total = s.total) : Tracks M t where
  chaining := hh.trans h.chaining
  tail := by rw [hbuf, hsize]; exact h.tail
  count := by rw [hsize]; exact h.count
  total := htotal.trans h.total

/-- A state with no byte buffered, none folded and H at its initial value stands for the empty message (R21 to R24). -/
theorem tracks_nil {s : State} (hh : s.h = iv) (hsize : s.bufsize = 0) (htotal : s.total = 0) : Tracks [] s where
  chaining := hh
  tail := by rw [hsize]; rfl
  count := by rw [hsize]; rfl
  total := htotal

/-- Settles O42, by the reset values of H, BUFSIZE and TOTAL (R42). -/
theorem resetTracksTheEmptyMessage : Obligations.ResetTracksTheEmptyMessage := tracks_nil rfl rfl rfl

/-- Bytes appended one after the other extend the message by all of them. -/
theorem tracks_foldl_appendByte {M : List Byte} {s : State} (hw : Memory.wf s.buf) (h : Tracks M s) (bs : List Byte) :
    Tracks (M ++ bs) (bs.foldl appendByte s) := by
  induction bs generalizing M s with
  | nil => simpa using h
  | cons b bs ih =>
    rw [List.append_cons]
    exact ih (foldl_appendByte_wf [b] s hw) (tracks_appendByte hw h b)

/-- The perform of the pending command takes the message to the one `messageAfter` names. -/
theorem tracks_exec {M : List Byte} {s t : State} {p : Pending} (hw : Memory.wf s.buf) (h : Tracks M s)
    (hn : s.nextTurn = .perform) (hp : s.pending = some p) (ht : exec p.cmd s.dropTurn = .next t) :
    Tracks (messageAfter s M) t := by
  have hkept : Tracks M (retire s.dropTurn) := tracks_of_eq h rfl rfl rfl rfl
  obtain ⟨i, d⟩ := p
  rcases exec_cases ht with ⟨hi, rfl⟩ | ⟨hi, rfl⟩ | ⟨nb, hi, -, herr, rfl⟩ | ⟨nb, hi, -, herr, rfl⟩ | ⟨hi, -, rfl⟩ |
    ⟨hi, -, rfl⟩ <;> obtain rfl := hi
  · simpa [messageAfter, hn, hp] using hkept
  · rw [show messageAfter s M = [] by simp [messageAfter, hn, hp]]
    exact tracks_nil rfl rfl rfl
  · rw [dropTurn_err] at herr
    simpa [messageAfter, hn, hp, herr] using hkept
  · rw [dropTurn_err] at herr
    rw [show messageAfter s M = M ++ lanes nb d by simp [messageAfter, hn, hp, herr, Pending.payload],
      operand_of_pending s.dropTurn hp]
    exact tracks_of_eq (tracks_foldl_appendByte (s := s.dropTurn) hw (tracks_of_eq h rfl rfl rfl rfl) (lanes nb d))
      rfl rfl rfl rfl
  · simpa [messageAfter, hn, hp] using hkept
  · rw [show messageAfter s M = M by simp [messageAfter, hn, hp]]
    exact tracks_of_eq hkept rfl rfl rfl rfl

/-- Settles O43: a host's turn leaves the message, a reset starts the empty one, a perform is `tracks_exec`. -/
theorem stepTracksTheMessage : Obligations.StepTracksTheMessage := by
  intro s t M hinv h hstep
  rcases step_cases hstep with ⟨idx, v, hn, rfl⟩ | ⟨idx, hn, rfl⟩ | ⟨hn, rfl⟩ | ⟨hn, hp, rfl⟩ | ⟨p, hn, hp, ht⟩
  · rw [show messageAfter s M = M by simp [messageAfter, hn]]
    obtain ⟨hh, hbuf, hsize, htotal, -⟩ := regWrite_keeps_computation idx v s.dropTurn
    exact tracks_of_eq h hh hbuf hsize htotal
  · rw [show messageAfter s M = M by simp [messageAfter, hn]]
    exact tracks_of_eq h rfl rfl rfl rfl
  · rw [show messageAfter s M = [] by simp [messageAfter, hn]]
    exact tracks_nil rfl rfl rfl
  · rw [show messageAfter s M = M by simp [messageAfter, hn, hp]]
    exact tracks_of_eq h rfl rfl rfl rfl
  · exact tracks_exec hinv.buf_wf h hn hp ht

/-! ### The stale bytes of BUF -/

/-- States that differ at most in stale bytes are one state with two contents of BUF. -/
theorem SameButStale.exists_buf {s s' : State} (h : SameButStale s s') :
    ∃ m : Memory, s' = { s with buf := m } ∧ ∀ a, a < s.bufsize.toNat → s.buf.read a = m.read a :=
  ⟨s'.buf, h.rest.symm, h.live⟩

/-- PENDING is the same in both states. -/
theorem SameButStale.pending_eq {s s' : State} (h : SameButStale s s') : s'.pending = s.pending := by
  rw [← h.rest]

/-- The next turn is the same in both states. -/
theorem SameButStale.nextTurn_eq {s s' : State} (h : SameButStale s s') : s'.nextTurn = s.nextTurn := by
  rw [← h.rest]; rfl

/-- A read of the port does not see BUF (R47). -/
theorem regRead_with_buf (idx : BitVec 4) (s : State) (m : Memory) : regRead idx { s with buf := m } = regRead idx s := by
  unfold regRead
  cases Reg.ofIndex idx <;> rfl

/-- The issue of a word neither reads nor writes BUF (R75). -/
theorem issue_with_buf (w : Word) (s : State) (m : Memory) :
    issue w { s with buf := m } = { issue w s with buf := m } := by
  unfold issue
  cases hp : s.pending with
  | some p => simp [State.busy, hp, recordError]
  | none =>
    cases hd : decode w with
    | cmd i => cases i <;> simp [State.busy, hp, accept, clearErrors]
    | illegal => simp [State.busy, hp, recordError]
    | badLength => simp [State.busy, hp, recordError]

/-- A write to the port neither reads nor writes BUF (R48). -/
theorem regWrite_with_buf (idx : BitVec 4) (v : Word) (s : State) (m : Memory) :
    regWrite idx v { s with buf := m } = { regWrite idx v s with buf := m } := by
  unfold regWrite
  cases Reg.ofIndex idx with
  | cmd => exact issue_with_buf v s m
  | _ => rfl

/-- A byte appended to both states is live in both, and a completed block holds no stale byte (R22). -/
theorem sameButStale_appendByte {s s' : State} (hw : Memory.wf s.buf) (hw' : Memory.wf s'.buf) (h : SameButStale s s')
    (b : Byte) : SameButStale (appendByte s b) (appendByte s' b) := by
  obtain ⟨m, rfl, hlive⟩ := h.exists_buf
  have hb := s.bufsize.isLt
  have hread : ∀ a, a < s.bufsize.toNat + 1 →
      (s.buf.write s.bufsize.toNat b).read a = (m.write s.bufsize.toNat b).read a := by
    intro a ha
    rw [Memory.read_write hw, Memory.read_write hw']
    split
    · rfl
    · exact hlive a (by omega)
  by_cases hfull : s.bufsize.toNat = 63
  · rw [appendByte_of_full s b hw hfull, appendByte_of_full { s with buf := m } b hw' hfull,
      Memory.readBytes_congr (n := m) fun i hi => by simpa using hlive i (by omega)]
    exact ⟨rfl, fun a ha => absurd ha (Nat.not_lt_zero a)⟩
  · have hnext : (s.bufsize + 1).toNat = s.bufsize.toNat + 1 := by
      rw [BitVec.toNat_add]; simp; omega
    rw [appendByte_of_lt s b (by omega), appendByte_of_lt { s with buf := m } b (show s.bufsize.toNat < 63 by omega)]
    exact ⟨rfl, fun a ha => hread a (hnext ▸ ha)⟩

/-- Bytes appended to both states one after the other. -/
theorem sameButStale_foldl_appendByte {s s' : State} (hw : Memory.wf s.buf) (hw' : Memory.wf s'.buf)
    (h : SameButStale s s') (bs : List Byte) : SameButStale (bs.foldl appendByte s) (bs.foldl appendByte s') := by
  induction bs generalizing s s' with
  | nil => exact h
  | cons b bs ih =>
    exact ih (foldl_appendByte_wf [b] s hw) (foldl_appendByte_wf [b] s' hw') (sameButStale_appendByte hw hw' h b)

/-- Retiring touches no byte of BUF. -/
theorem sameButStale_retire {s s' : State} (h : SameButStale s s') : SameButStale (retire s) (retire s') :=
  ⟨congrArg retire h.rest, h.live⟩

/-- A perform reads no stale byte, and where it has a result so has it from the other state (R109). -/
theorem sameButStale_exec {i : Instr} {s s' t : State} (hw : Memory.wf s.buf) (hw' : Memory.wf s'.buf)
    (h : SameButStale s s') (ht : exec i s = .next t) : ∃ t', exec i s' = .next t' ∧ SameButStale t t' := by
  obtain ⟨m, rfl, hlive⟩ := h.exists_buf
  rcases exec_cases ht with ⟨rfl, rfl⟩ | ⟨rfl, -⟩ | ⟨nb, rfl, hnb, herr, rfl⟩ | ⟨nb, rfl, hnb, herr, rfl⟩ |
    ⟨rfl, herr, rfl⟩ | ⟨rfl, herr, rfl⟩
  · exact ⟨_, rfl, sameButStale_retire h⟩
  · rw [exec_init hw] at ht
    obtain rfl := Host.Outcome.next.inj ht
    exact ⟨_, exec_init hw', sameButStale_retire ⟨rfl, fun _ _ => rfl⟩⟩
  · exact ⟨_, exec_of_err (by simpa [Instr.wf] using hnb) (by simp) herr, sameButStale_retire h⟩
  · exact ⟨_, exec_update hnb herr, sameButStale_retire (sameButStale_foldl_appendByte hw hw' h _)⟩
  · exact ⟨_, exec_of_err rfl (by simp) herr, sameButStale_retire h⟩
  · refine ⟨_, exec_finalize herr, ?_, hlive⟩
    rw [Memory.readBytes_congr (n := m) fun i hi => by simpa using hlive i hi]
    rfl

/-- A turn reads no stale byte, and where it has a result so has it from the other state. -/
theorem sameButStale_takeTurn {ev : Event} {s s' t : State} (hw : Memory.wf s.buf) (hw' : Memory.wf s'.buf)
    (h : SameButStale s s') (ht : takeTurn ev s = .next t) : ∃ t', takeTurn ev s' = .next t' ∧ SameButStale t t' := by
  cases ev with
  | write idx v =>
    obtain rfl := Host.Outcome.next.inj ht
    obtain ⟨m, rfl, hlive⟩ := h.exists_buf
    obtain ⟨-, hbuf, hsize, -, -⟩ := regWrite_keeps_computation idx v s
    refine ⟨_, rfl, ?_⟩
    rw [regWrite_with_buf idx v s m]
    exact ⟨rfl, by rw [hbuf, hsize]; exact hlive⟩
  | read idx =>
    obtain rfl := Host.Outcome.next.inj ht
    obtain ⟨m, rfl, hlive⟩ := h.exists_buf
    refine ⟨_, rfl, ?_⟩
    rw [regRead_with_buf idx s m]
    exact ⟨rfl, hlive⟩
  | perform =>
    simp only [takeTurn, coreTurn, h.pending_eq] at ht ⊢
    cases hp : s.pending with
    | none => rw [hp] at ht; obtain rfl := Host.Outcome.next.inj ht; exact ⟨_, rfl, h⟩
    | some p => rw [hp] at ht; exact sameButStale_exec hw hw' h ht
  | reset =>
    obtain rfl := Host.Outcome.next.inj ht
    obtain ⟨m, rfl, -⟩ := h.exists_buf
    exact ⟨_, rfl, rfl, fun _ _ => rfl⟩

/-- Settles O48: the two states take the same turn, and what the host can observe is in the part they share. -/
theorem staleBytesAreUnobservable : Obligations.StaleBytesAreUnobservable := by
  intro s s' t hinv hinv' h hstep
  have hdrop : SameButStale s.dropTurn s'.dropTurn := ⟨congrArg State.dropTurn h.rest, h.live⟩
  obtain ⟨t', ht', hsame⟩ := sameButStale_takeTurn (s := s.dropTurn) (s' := s'.dropTurn) hinv.buf_wf hinv'.buf_wf
    hdrop hstep
  refine ⟨t', by rw [step, h.nextTurn_eq]; exact ht', hsame, ?_⟩
  obtain ⟨m, rfl, -⟩ := hsame.exists_buf
  exact ⟨rfl, fun idx => (regRead_with_buf idx t m).symm⟩

/-! ### STATUS -/

/-- A field put above the bits that a word uses adds to its value, and uses the bits up to its own end. -/
theorem toNat_or_field {x : Word} {k : Nat} (f : BitVec k) (n : Nat) (hx : x.toNat < 2 ^ n) (hn : n + k ≤ 32) :
    (x ||| f.zeroExtend 32 <<< n).toNat = x.toNat + 2 ^ n * f.toNat ∧
      (x ||| f.zeroExtend 32 <<< n).toNat < 2 ^ (n + k) := by
  have hfield : 2 ^ n * f.toNat + 2 ^ n ≤ 2 ^ (n + k) := by
    rw [pow_add, ← Nat.mul_succ]; exact Nat.mul_le_mul_left _ f.isLt
  have hword : 2 ^ (n + k) ≤ 2 ^ 32 := Nat.pow_le_pow_right (by decide) hn
  have hshift : (f.zeroExtend 32 <<< n).toNat = f.toNat <<< n := by
    rw [BitVec.toNat_shiftLeft, BitVec.toNat_setWidth, Nat.mod_eq_of_lt (a := f.toNat), Nat.mod_eq_of_lt]
    · rw [Nat.shiftLeft_eq, Nat.mul_comm]; omega
    · exact f.isLt.trans_le (Nat.pow_le_pow_right (by decide) (by omega))
  have hsum : (x ||| f.zeroExtend 32 <<< n).toNat = x.toNat + 2 ^ n * f.toNat := by
    rw [BitVec.toNat_or, hshift, Nat.or_comm, ← Nat.shiftLeft_add_eq_or_of_lt hx, Nat.shiftLeft_eq]; ring
  exact ⟨hsum, by omega⟩

/-- R35's packing as a sum: each field stands above the ones before it. -/
theorem toNat_status (s : State) :
    s.status.toNat = s.pending.isSome.toNat + 2 * s.dv.toNat + 4 * s.err.toNat + 16 * s.errcode.toNat +
      256 * s.bufsize.toNat := by
  have hbusy : (flagWord s.busy).toNat = s.pending.isSome.toNat := by
    cases h : s.pending <;> simp [State.busy, h, flagWord]
  have l0 : (flagWord s.busy).toNat < 2 ^ 1 := hbusy ▸ Bool.toNat_lt _
  obtain ⟨e1, l1⟩ := toNat_or_field (BitVec.ofBool s.dv) 1 l0 (by decide)
  obtain ⟨e2, l2⟩ := toNat_or_field (BitVec.ofBool s.err) 2 l1 (by decide)
  obtain ⟨e3, l3⟩ := toNat_or_field s.errcode 4 (l2.trans (by decide)) (by decide)
  obtain ⟨e4, -⟩ := toNat_or_field s.bufsize 8 (l3.trans (by decide)) (by decide)
  rw [BitVec.toNat_ofBool] at e1 e2
  exact e4.trans (by omega)

/-- A field of STATUS is a digit of the sum. -/
theorem status_field {s : State} {n k : Nat} {x : BitVec k}
    (h : (s.pending.isSome.toNat + 2 * s.dv.toNat + 4 * s.err.toNat + 16 * s.errcode.toNat +
      256 * s.bufsize.toNat) / 2 ^ n % 2 ^ k = x.toNat) : s.status.extractLsb' n k = x :=
  BitVec.eq_of_toNat_eq (by rw [BitVec.extractLsb'_toNat, Nat.shiftRight_eq_div_pow, toNat_status, h])

/-- Settles O9: STATUS is the sum, and its fields are the digits. -/
theorem statusFieldsReadTheState : Obligations.StatusFieldsReadTheState := by
  refine ⟨fun s => ?_, rfl, fun _ _ => rfl⟩
  have hbusy := s.pending.isSome.toNat_lt
  have hdv := s.dv.toNat_lt
  have herr := s.err.toNat_lt
  have hcode := s.errcode.isLt
  have hsize := s.bufsize.isLt
  refine ⟨status_field ?busy, status_field ?dv, status_field ?err, status_field ?bit3, status_field ?errcode,
    status_field ?bit7, status_field ?bufsize, status_field ?top, toNat_status s, rfl⟩
  case busy | dv | err => rw [BitVec.toNat_ofBool]; omega
  case errcode | bufsize => omega
  case bit3 | bit7 | top => rw [BitVec.ofNat_eq_ofNat, BitVec.toNat_zero]; omega

/-! ### Several cores -/

/-- Settles O49, by what a list's `set` leaves (R136). -/
theorem coresShareNoState : Obligations.CoresShareNoState := by
  intro cores k s t hk hstep
  have hlt : k < cores.length := (List.getElem?_eq_some_iff.mp hk).1
  exact ⟨cores.set k t, onCore_next hk hstep, List.getElem?_set_self hlt, List.length_set,
    fun j hj => List.getElem?_set_ne hj.symm⟩

end Sys2Proof.Machine
end

section
/-! PROOFS. The register port and the order of the commands (20_memory.md R44 to R48, R58, R59; 40_stream_commands.md R76 to
R78): the window's addresses, what a read returns, what a write does, the frame of a perform, and how long a command stays
pending. -/

namespace Sys2Proof.Machine

/-! ### Addresses -/

/-- Settles O10: BASE is 64 times a slot, and the slots of two cores differ. -/
theorem windowAddressesDecodeToTheirIndex : Obligations.WindowAddressesDecodeToTheirIndex := by
  refine ⟨fun k => Nat.mul_mod_right 64 _, fun k idx => ⟨rfl, indexOfHostAddress_eq_some_iff.mpr rfl⟩, ?_⟩
  intro k j a hk hk' hj hj'
  have hslot : Config.windowSlot k = Config.windowSlot j := by
    simp only [Config.base] at hk hk' hj hj'
    omega
  exact windowSlot_strictMono.injective hslot

/-! ### Reads and writes of the window -/

/-- R47's table of what a read returns, its rows in the order of the indices. -/
theorem regRead_eq_getD (idx : BitVec 4) (s : State) :
    regRead idx s =
      ([0, s.dataIn, s.status, 0, s.total.extractLsb' 0 32, s.total.extractLsb' 32 32, 0, 0,
        s.digest[0], s.digest[1], s.digest[2], s.digest[3], s.digest[4], s.digest[5], s.digest[6],
        s.digest[7]] : List Word).getD idx.toNat 0 := by
  obtain ⟨n, hn⟩ := idx
  interval_cases n <;> rfl

/-- A read sees neither the turns to come nor what the host has read (R47). -/
theorem regRead_with_outside (idx : BitVec 4) (s : State) (evs : List Event) (log : List Word) :
    regRead idx { s with schedule := evs, readLog := log } = regRead idx s := by
  unfold regRead
  cases Reg.ofIndex idx <;> rfl

/-- Settles O7: the turn records R47's value, and no read sees the two fields that it writes. -/
theorem readReturnsTheRegisterAndChangesNothing : Obligations.ReadReturnsTheRegisterAndChangesNothing := by
  intro s idx rest h
  refine ⟨_, step_of_schedule h, ?_, fun j => regRead_with_outside j s _ _⟩
  rw [← regRead_eq_getD, regRead_with_outside idx s rest s.readLog]

/-- A write at any index but CMD's and DATA_IN's is ignored (R48). -/
theorem regWrite_of_ne {idx : BitVec 4} (h0 : idx ≠ 0) (h1 : idx ≠ 1) (v : Word) (s : State) : regWrite idx v s = s := by
  rcases regWrite_cases idx v s with ⟨h, -⟩ | ⟨h, -⟩ | ⟨-, -, h⟩
  · exact absurd h h0
  · exact absurd h h1
  · exact h

/-- Settles O8: the host's turn is `regWrite`. The write to CMD that is not idempotent is a NOP's, to a core after reset: the
second one records OVERRUN. -/
theorem writeHasExactlyTheRuledEffect : Obligations.WriteHasExactlyTheRuledEffect := by
  refine ⟨fun s idx v rest h => ?_, fun s v => rfl, State.reset, encode .nop, fun h => ?_⟩
  · rw [step_of_schedule h, takeTurn]
    refine ⟨?cmd, ?dataIn, fun h0 h1 => by rw [regWrite_of_ne h0 h1]⟩
    case cmd => rintro rfl; rw [regWrite_zero, issue_with_schedule]
    case dataIn => rintro rfl; rfl
  · exact absurd (congrArg State.err h) (by decide)

/-! ### The frame of a perform -/

/-- A perform leaves the error record and what the host's side owns, and ends with nothing pending (R76, R78). -/
theorem exec_keeps_host {i : Instr} {s t : State} (h : exec i s = .next t) :
    t.err = s.err ∧ t.errcode = s.errcode ∧ t.dataIn = s.dataIn ∧ t.pending = none ∧ t.schedule = s.schedule ∧
      t.readLog = s.readLog := by
  rcases exec_cases h with ⟨-, rfl⟩ | ⟨-, rfl⟩ | ⟨nb, -, -, -, rfl⟩ | ⟨nb, -, -, -, rfl⟩ | ⟨-, -, rfl⟩ | ⟨-, -, rfl⟩
  · exact ⟨rfl, rfl, rfl, rfl, rfl, rfl⟩
  · exact ⟨rfl, rfl, rfl, rfl, rfl, rfl⟩
  · exact ⟨rfl, rfl, rfl, rfl, rfl, rfl⟩
  · simp
  · exact ⟨rfl, rfl, rfl, rfl, rfl, rfl⟩
  · exact ⟨rfl, rfl, rfl, rfl, rfl, rfl⟩

/-- Only FINALIZE sets DV (R84). -/
theorem exec_keeps_dv {i : Instr} {s t : State} (h : exec i s = .next t) (hi : i ≠ .finalize) : t.dv = s.dv := by
  rcases exec_cases h with ⟨-, rfl⟩ | ⟨-, rfl⟩ | ⟨nb, -, -, -, rfl⟩ | ⟨nb, -, -, -, rfl⟩ | ⟨hf, -⟩ | ⟨hf, -⟩
  · rfl
  · rfl
  · rfl
  · simp
  · exact absurd hf hi
  · exact absurd hf hi

/-- NOP writes nothing of the computation, and FINALIZE works on a copy of it (R79, R111). -/
theorem exec_keeps_message {i : Instr} {s t : State} (h : exec i s = .next t) (hi : i = .nop ∨ i = .finalize) :
    t.h = s.h ∧ t.bufsize = s.bufsize ∧ t.total = s.total ∧ t.buf = s.buf := by
  rcases exec_cases h with ⟨-, rfl⟩ | ⟨rfl, -⟩ | ⟨nb, rfl, -⟩ | ⟨nb, rfl, -⟩ | ⟨-, -, rfl⟩ | ⟨-, -, rfl⟩
  · exact ⟨rfl, rfl, rfl, rfl⟩
  · simp at hi
  · simp at hi
  · simp at hi
  · exact ⟨rfl, rfl, rfl, rfl⟩
  · exact ⟨rfl, rfl, rfl, rfl⟩

/-- NOP and UPDATE leave the last digest (R79, R82). -/
theorem exec_keeps_digest {i : Instr} {s t : State} (h : exec i s = .next t) (hi : i = .nop ∨ ∃ nb, i = .update nb) :
    t.digest = s.digest := by
  rcases exec_cases h with ⟨-, rfl⟩ | ⟨rfl, -⟩ | ⟨nb, -, -, -, rfl⟩ | ⟨nb, -, -, -, rfl⟩ | ⟨rfl, -⟩ | ⟨rfl, -⟩
  · rfl
  · simp at hi
  · rfl
  · simp
  · simp at hi
  · simp at hi

/-- Settles O33, one lemma for each part of the frame. -/
theorem performFrame : Obligations.PerformFrame := by
  intro i s t h
  obtain ⟨herr, hcode, hdata, hpending, hsched, hlog⟩ := exec_keeps_host h
  refine ⟨herr, hcode, hdata, hpending, hsched, hlog, exec_keeps_dv h, fun hi => ?_, exec_keeps_digest h⟩
  obtain ⟨hh, hsize, htotal, hbuf⟩ := exec_keeps_message h hi
  exact ⟨hh, hsize, htotal, fun a => by rw [hbuf]⟩

/-! ### How long a command stays pending -/

/-- A word written to a busy core is an OVERRUN, whatever it is (R75, R129). -/
theorem issue_of_pending {s : State} {p : Pending} (hp : s.pending = some p) (w : Word) :
    issue w s = recordError .overrun s := by
  simp [issue, State.busy, hp]

/-- No write to the port makes a busy core give up its command: an OVERRUN leaves PENDING (R48, R75). -/
theorem regWrite_pending_of_some {s : State} {p : Pending} (hp : s.pending = some p) (idx : BitVec 4) (v : Word) :
    (regWrite idx v s).pending = some p := by
  rcases regWrite_cases idx v s with ⟨-, hw⟩ | ⟨-, hw⟩ | ⟨-, -, hw⟩ <;> rw [hw]
  · rw [issue_of_pending hp, recordError_pending, hp]
  · exact hp
  · exact hp

/-- Settles O14, one case a turn: a host's access leaves PENDING, a reset and a perform empty it. -/
theorem onlyPerformOrResetEndsPending : Obligations.OnlyPerformOrResetEndsPending := by
  intro s t p hp h
  rcases step_cases h with ⟨idx, v, -, rfl⟩ | ⟨idx, -, rfl⟩ | ⟨hn, rfl⟩ | ⟨-, hnone, -⟩ | ⟨q, hn, -, he⟩
  · exact .inl (regWrite_pending_of_some (s := s.dropTurn) hp idx v)
  · exact .inl hp
  · exact .inr ⟨rfl, .inr hn⟩
  · rw [hp] at hnone; cases hnone
  · obtain ⟨-, -, -, hpending, -, -⟩ := exec_keeps_host he
    exact .inr ⟨hpending, .inl hn⟩

/-- A write to the port leaves the turns to come. -/
@[simp] theorem regWrite_schedule (idx : BitVec 4) (v : Word) (s : State) : (regWrite idx v s).schedule = s.schedule := by
  rcases regWrite_cases idx v s with ⟨-, h⟩ | ⟨-, h⟩ | ⟨-, -, h⟩ <;> rw [h]
  · exact (congrArg State.schedule (issue_with_schedule v s s.schedule) :)

/-- Every step takes the one turn off the schedule. -/
theorem step_schedule {s t : State} (h : step s = .next t) : t.schedule = s.schedule.tail := by
  rcases step_cases h with ⟨idx, v, -, rfl⟩ | ⟨idx, -, rfl⟩ | ⟨-, rfl⟩ | ⟨-, -, rfl⟩ | ⟨p, -, -, he⟩
  · simp
  · rfl
  · rfl
  · rfl
  · obtain ⟨-, -, -, -, hsched, -⟩ := exec_keeps_host he
    exact hsched

/-- A next turn that is not the core's stands on the schedule. -/
theorem nextTurn_mem {s : State} (h : s.nextTurn ≠ .perform) : s.nextTurn ∈ s.schedule := by
  unfold State.nextTurn at h ⊢
  cases hs : s.schedule with
  | nil => rw [hs] at h; exact absurd rfl h
  | cons ev rest => simp

/-- The core's turn on a pending command is its perform, whether the turn is fixed or the schedule is empty (R76). -/
theorem step_of_nextTurn_perform {s : State} {p : Pending} (hp : s.pending = some p) (hn : s.nextTurn = .perform) :
    step s = exec p.cmd s.dropTurn := by
  rw [step, hn, takeTurn, coreTurn]
  simp only [dropTurn_pending, hp]

/-- Bit 0 of STATUS is BUSY (R35). -/
theorem status_getLsbD_zero (s : State) : s.status.getLsbD 0 = s.pending.isSome := by
  simp [State.status, State.busy, flagWord]

/-- Settles O40, by induction on the number of steps: a turn that is not the core's leaves the command pending and a schedule
without a reset, so with BUSY = 0 in the end the core's turn came. -/
theorem idleStatusMeansPerformed : Obligations.IdleStatusMeansPerformed := by
  intro s u p n hp hreset hrun hidle
  induction n generalizing s with
  | zero =>
    obtain rfl := Host.Outcome.next.inj hrun
    rw [status_getLsbD_zero, hp] at hidle
    cases hidle
  | succ n ih =>
    obtain ⟨t, hstep, hrest⟩ := step_of_runSteps hrun
    by_cases hn : s.nextTurn = .perform
    · exact ⟨0, s, t, n.succ_pos, rfl, hp, hn, step_of_nextTurn_perform hp hn ▸ hstep, hstep⟩
    · have hne : s.nextTurn ≠ .reset := fun h => hreset (h ▸ nextTurn_mem hn)
      have hpt : t.pending = some p :=
        (onlyPerformOrResetEndsPending s t p hp hstep).resolve_right fun ⟨_, h⟩ => h.elim hn hne
      have hresett : .reset ∉ t.schedule := step_schedule hstep ▸ fun h => hreset (List.mem_of_mem_tail h)
      obtain ⟨m, v, w, hm, hv, hpv, hnv, hexec, hw⟩ := ih t hpt hresett hrest
      exact ⟨m + 1, v, w, Nat.succ_lt_succ hm, runSteps_succ hstep ▸ hv, hpv, hnv, hexec, hw⟩

end Sys2Proof.Machine
end

section
/-! PROOFS. The CMD word and the assembler's lines (30_encoding.md R64 to R74): what decodes to what, what a word that is no
command records, the lanes of UPDATE, and the port access of each line. -/

namespace Sys2Proof.Machine

/-! ### Decoding and encoding -/

/-- Settles O2: a decoded word has the fields of the command's encoding, and a word is its fields. -/
theorem decodesExactlyItsEncodings : Obligations.DecodesExactlyItsEncodings := by
  intro w i
  constructor
  · intro h
    obtain ⟨hrsv, hop, hnb, hwf⟩ := fields_of_decode h
    exact ⟨hwf, eq_of_fields (by simp [hop]) (by simp [hnb]) (by simp [hrsv])⟩
  · rintro ⟨hwf, rfl⟩
    exact decode_of_fields (by simp) (by simp) (by simp) hwf

/-- Settles O1: each word is evaluated. -/
theorem wordsWrittenOutDecode : Obligations.WordsWrittenOutDecode := by
  unfold Obligations.WordsWrittenOutDecode
  decide

/-- Settles O30: a decoded command is well formed, and the meaning of an ill-formed UPDATE is its fault. -/
theorem fiveToSevenBytesIsNoUpdate : Obligations.FiveToSevenBytesIsNoUpdate := by
  intro nb hnb
  refine ⟨fun w hd => ?_, fun s => ?_⟩
  · obtain ⟨-, -, -, hwf⟩ := fields_of_decode hd
    exact absurd (of_decide_eq_true hwf) (Nat.not_le.mpr hnb)
  · rw [exec, execUpdate, if_neg (Nat.not_le.mpr hnb)]

/-! ### Words that are no command -/

/-- What a word that decodes to a bad length holds (R71): RSV zero, UPDATE's OP, and a byte count above 4. -/
theorem fields_of_decode_badLength {w : Word} (h : decode w = .badLength) :
    rsvField w = 0 ∧ opField w = 0x2 ∧ 4 < (nbField w).toNat := by
  unfold decode at h
  split_ifs at h with hrsv hop hnb
  exact ⟨not_not.mp hrsv, hop, Nat.not_le.mp hnb⟩

theorem toNat_opField (w : Word) : (opField w).toNat = w.toNat % 16 := by
  rw [opField, BitVec.extractLsb'_toNat, Nat.shiftRight_zero]

theorem toNat_nbField (w : Word) : (nbField w).toNat = w.toNat / 16 % 8 := by
  rw [nbField, BitVec.extractLsb'_toNat, Nat.shiftRight_eq_div_pow]

theorem toNat_rsvField (w : Word) : (rsvField w).toNat = w.toNat / 2 ^ 7 := by
  rw [rsvField, BitVec.extractLsb'_toNat, Nat.shiftRight_eq_div_pow]
  omega

/-- A nonzero RSV, a reserved OP, or a nonzero NB where the OP is not UPDATE's makes a word illegal (R70): a command and a bad
length have none of these. -/
theorem decode_eq_illegal {w : Word}
    (h : w.toNat ≥ 2 ^ 7 ∨ 4 ≤ w.toNat % 16 ∨ (w.toNat % 16 ≠ 2 ∧ w.toNat / 16 % 8 ≠ 0)) : decode w = .illegal := by
  rw [← toNat_opField, ← toNat_nbField] at h
  have hrsv0 : rsvField w = 0 → w.toNat < 2 ^ 7 := fun h0 => by
    have := toNat_rsvField w
    rw [h0, BitVec.ofNat_eq_ofNat, BitVec.toNat_zero] at this
    omega
  cases hd : decode w with
  | illegal => rfl
  | badLength =>
    obtain ⟨hrsv, hop, -⟩ := fields_of_decode_badLength hd
    have := hrsv0 hrsv
    have : (opField w).toNat = 2 := by rw [hop]; rfl
    omega
  | cmd i =>
    obtain ⟨hrsv, hop, hnb, -⟩ := fields_of_decode hd
    have := hrsv0 hrsv
    have hi : i.op.toNat < 4 ∧ (i.op.toNat = 2 ∨ i.nb.toNat = 0) := by cases i <;> simp [Instr.op, Instr.nb]
    rw [hop, hnb] at h
    omega

/-- An illegal word written to an idle core (R75). -/
theorem issue_of_illegal {w : Word} {s : State} (hp : s.pending = none) (hd : decode w = .illegal) :
    issue w s = recordError .illegalCmd s := by
  simp [issue, State.busy, hp, hd]

/-- A bad length written to an idle core (R75). -/
theorem issue_of_badLength {w : Word} {s : State} (hp : s.pending = none) (hd : decode w = .badLength) :
    issue w s = recordError .badLength s := by
  simp [issue, State.busy, hp, hd]

/-- Settles O4: each word's rejection, and `recordError` written out. -/
theorem rejectedWordsRecordTheirError : Obligations.RejectedWordsRecordTheirError := by
  refine fun w s hp => ⟨fun h => issue_of_illegal hp (decode_eq_illegal h), fun h => issue_of_badLength hp ?_⟩
  rcases h with rfl | rfl | rfl <;> decide

/-! ### The legal words -/

/-- The five byte counts of an UPDATE (R66). -/
theorem update_wf_iff (nb : BitVec 3) :
    (Instr.update nb).wf = true ↔ nb = 0 ∨ nb = 1 ∨ nb = 2 ∨ nb = 3 ∨ nb = 4 := by
  revert nb; decide

/-- The words of the well-formed commands (R65). -/
theorem encode_mem_legalWords {i : Instr} (h : i.wf = true) :
    encode i ∈ ([0x00000000, 0x00000001, 0x00000002, 0x00000012, 0x00000022, 0x00000032, 0x00000042, 0x00000003] :
      List Word) := by
  cases i with
  | update nb => rcases (update_wf_iff nb).mp h with rfl | rfl | rfl | rfl | rfl <;> decide
  | nop => decide
  | init => decide
  | finalize => decide

/-- A command without an operand field is decoded from its own word alone (R65). -/
theorem decode_iff_of_wf {i : Instr} (hi : i.wf = true) (w : Word) : decode w = .cmd i ↔ w = encode i := by
  rw [decodesExactlyItsEncodings w i, eq_comm (a := w)]
  exact and_iff_right hi

/-- Settles O3: the legal words are the encodings of the well-formed commands, and every other word is one of `issue`'s
errors. -/
theorem legalWordsAreExactlyTheEight : Obligations.LegalWordsAreExactlyTheEight := by
  refine ⟨decode_iff_of_wf rfl, decode_iff_of_wf rfl, fun w nb => ?update, decode_iff_of_wf rfl, fun w s hw => ?other,
    fun w s hop hp herr => ?reserved⟩
  case update =>
    rw [decodesExactlyItsEncodings, update_wf_iff]
    simp only [or_and_right]
    have word (k : BitVec 3) : nb = k ∧ encode (.update nb) = w ↔ nb = k ∧ w = encode (.update k) :=
      and_congr_right fun h => by rw [h, eq_comm]
    rw [word, word, word, word, word]
    rfl
  case other =>
    rcases issue_cases w s with ⟨-, h⟩ | ⟨-, -, h⟩ | ⟨-, -, h⟩ | ⟨-, i, hd, -⟩
    · rw [h]; exact ⟨rfl, rfl⟩
    · rw [h]; exact ⟨rfl, rfl⟩
    · rw [h]; exact ⟨rfl, rfl⟩
    · obtain ⟨hwf, rfl⟩ := (decodesExactlyItsEncodings w i).mp hd
      exact absurd (encode_mem_legalWords hwf) hw
  case reserved =>
    rw [issue_of_illegal hp (decode_eq_illegal (.inr (.inl hop))), recordError_errcode, herr]
    rfl

/-! ### The operand of UPDATE -/

/-- An UPDATE of at most four bytes is a command (R66). -/
theorem update_wf {nb : BitVec 3} (h : nb.toNat ≤ 4) : (Instr.update nb).wf = true := decide_eq_true h

/-- The first lanes depend on the high bits of the operand alone (R68). -/
theorem lanes_congr {nb : BitVec 3} {d d' : Word} (hnb : nb.toNat ≤ 4)
    (h : ∀ i, 32 - 8 * nb.toNat ≤ i → i < 32 → d.getLsbD i = d'.getLsbD i) : lanes nb d = lanes nb d' := by
  apply List.ext_getElem
  · rw [length_lanes hnb, length_lanes hnb]
  · intro j hj hj'
    have hlt : j < nb.toNat := length_lanes hnb d ▸ hj
    rw [List.getElem_eq_getD (h := hj) 0, List.getElem_eq_getD (h := hj') 0, getD_lanes d (by omega) hlt,
      getD_lanes d' (by omega) hlt]
    apply BitVec.eq_of_getLsbD_eq
    intro i hi
    rw [BitVec.getLsbD_extractLsb', BitVec.getLsbD_extractLsb', h _ (by omega) (by omega)]

/-- The perform of a pending UPDATE appends the lanes of the operand latched with it (R68, R82). -/
theorem exec_update_with_pending {nb : BitVec 3} {s : State} (d : Word) (hnb : nb.toNat ≤ 4) (herr : s.err = false) :
    exec (.update nb) { s with pending := some ⟨.update nb, d⟩ } =
      .next (retire ((lanes nb d).foldl appendByte s)) := by
  have happend := foldl_appendByte_with (lanes nb d) s (some ⟨.update nb, d⟩) s.dataIn s.schedule s.readLog
  calc exec (.update nb) { s with pending := some ⟨.update nb, d⟩ }
    _ = .next (retire ((lanes nb d).foldl appendByte { s with pending := some ⟨.update nb, d⟩ })) := exec_update hnb herr
    _ = .next (retire ((lanes nb d).foldl appendByte s)) := by rw [happend]; simp [retire]

/-- The next state after an UPDATE depends on the operand's first lanes alone (R82). -/
theorem exec_update_of_lanes_eq {nb : BitVec 3} {d d' : Word} (hnb : nb.toNat ≤ 4) (h : lanes nb d = lanes nb d')
    (s : State) :
    ∃ t, exec (.update nb) { s with pending := some ⟨.update nb, d⟩ } = .next t ∧
      exec (.update nb) { s with pending := some ⟨.update nb, d'⟩ } = .next t := by
  rcases s.err.eq_false_or_eq_true with herr | herr
  · exact ⟨_, exec_of_err (update_wf hnb) (by simp) herr, exec_of_err (update_wf hnb) (by simp) herr⟩
  · exact ⟨_, exec_update_with_pending d hnb herr, h ▸ exec_update_with_pending d' hnb herr⟩

/-- Settles O27: the issue latches DATA_IN, and the perform reads the first lanes only. -/
theorem updateTakesTheHighLanes : Obligations.UpdateTakesTheHighLanes := by
  refine ⟨fun s nb hnb hp => ?_, fun nb d => rfl, fun s nb d d' hnb h => exec_update_of_lanes_eq hnb (lanes_congr hnb h) s⟩
  rw [issue_encode hp (update_wf hnb), accept_pending]

/-! ### The assembler's lines -/

/-- The word of the line `update N` is the encoding of UPDATE (R64, R73). -/
theorem event_update (n : Fin 5) : Line.event (.update n) = .write 0 (encode (.update (BitVec.ofNat 3 n.val))) := by
  revert n; decide

/-- Every register stands at the index of its name (R33). -/
theorem ofIndex_index (r : Reg) : Reg.ofIndex r.index = r := by
  cases r with
  | digest i => revert i; decide
  | cmd | dataIn | status | totalLo | totalHi | reserved => rfl

/-- The digest registers take the indices from 8 on (R33). -/
theorem toNat_index_digest (i : Fin 8) : (Reg.index (.digest i)).toNat = 8 + i.val := by
  rw [Reg.index, BitVec.toNat_ofNat]
  omega

/-- Settles O6: the lines but `update N` are written out in `Line.event`. -/
theorem assemblerLinesAreTheirPortAccess : Obligations.AssemblerLinesAreTheirPortAccess :=
  ⟨rfl, rfl, event_update, rfl, fun _ => rfl, fun _ _ => rfl, fun _ => rfl, ofIndex_index, rfl, rfl, rfl, rfl, rfl,
    toNat_index_digest⟩

end Sys2Proof.Machine
end

section
/-! PROOFS. The host's `hash "M"` as a run (30_encoding.md R74, 42_padding_digest.md R115). The digest of a state that stands for
`M` is `sha256 M`; a run of turns is described by what holds before and after it, so that a program's run is composed of its
lines' runs as the program is of its lines. -/

namespace Sys2Proof.Machine

/-! ### The digest of a state that stands for a message -/

/-- A padded tail is one block or two (R107, R108). -/
theorem length_pad_of_tail {B : List Byte} (h : B.length ≤ 63) (len : BitVec 64) :
    (pad B len).length = 64 ∨ (pad B len).length = 128 := by
  rw [length_pad]
  rcases Nat.lt_or_ge 55 B.length with hlong | hshort
  · rw [zeroCount_of_ge hlong h]; omega
  · rw [zeroCount_of_le hshort]; omega

/-- The digest function chains the blocks of the padded tail (R110). -/
theorem sha256Final_eq_chain {B : List Byte} (hB : B.length ≤ 63) (h : Vector Word 8) (L : Nat) :
    sha256Final h B L = chain ((pad B (lengthField L)).length / 64) h (pad B (lengthField L)) := by
  rcases length_pad_of_tail hB (lengthField L) with hlen | hlen
  · simp [sha256Final, hlen, chain]
  · have hlast : ((pad B (lengthField L)).drop 64).take 64 = (pad B (lengthField L)).drop 64 :=
      List.take_of_length_le (by simp [hlen])
    simp [sha256Final, hlen, chain, hlast]

/-- Padding a message pads what stands after its first `k` blocks. -/
theorem drop_pad {M : List Byte} {k : Nat} (hk : 64 * k ≤ M.length) (len : BitVec 64) :
    (pad M len).drop (64 * k) = pad (M.drop (64 * k)) len := by
  have hzero : zeroCount (M.length - 64 * k) = zeroCount M.length := by simp only [zeroCount]; omega
  simp only [pad, List.append_assoc, List.drop_append_of_le_length hk, List.length_drop, hzero]

/-- The digest of a message is the digest function of the chaining value after any of its whole blocks and the bytes after
them (R21, R115). -/
theorem sha256_eq_sha256Final {M : List Byte} {k : Nat} (hk : 64 * k ≤ M.length) (hlast : M.length ≤ 64 * k + 63) :
    sha256 M = sha256Final (chain k iv M) (M.drop (64 * k)) M.length := by
  have hwhole : chain k iv (pad M (lengthField M.length)) = chain k iv M := by
    simp only [pad, List.append_assoc]
    exact chain_append k iv _ hk
  have hblocks : (pad M (lengthField M.length)).length / 64 =
      k + (pad (M.drop (64 * k)) (lengthField M.length)).length / 64 := by
    rw [← drop_pad hk, List.length_drop, length_pad]
    omega
  rw [sha256Final_eq_chain (by simp; omega), sha256, hblocks, chain_add, hwhole, drop_pad hk]

/-- The digest function sees the length modulo 2^64 bits only (R85). -/
theorem sha256Final_congr_length (h : Vector Word 8) (B : List Byte) {L L' : Nat} (hL : 8 * L % 2 ^ 64 = 8 * L' % 2 ^ 64) :
    sha256Final h B L = sha256Final h B L' := by
  have hfield : lengthField L = lengthField L' := BitVec.eq_of_toNat_eq hL
  simp only [sha256Final, hfield]

/-- The digest function of a state that stands for `M` is the digest of `M` (R84, R115). -/
theorem Tracks.sha256Final_eq {M : List Byte} {s : State} (h : Tracks M s) :
    sha256Final s.h (s.buf.readBytes 0 s.bufsize.toNat) (s.total.toNat + s.bufsize.toNat) = sha256 M := by
  have hL : 8 * (s.total.toNat + s.bufsize.toNat) % 2 ^ 64 = 8 * M.length % 2 ^ 64 := by
    rw [h.total, h.count, BitVec.toNat_ofNat]
    omega
  rw [h.chaining, h.tail, sha256_eq_sha256Final (k := M.length / 64) (by omega) (by omega)]
  exact sha256Final_congr_length _ _ hL

/-! ### A host that delivers a message -/

/-- The core holds the message `M` without an error, with `p` pending: what a host that delivers `M` keeps between its turns. -/
structure Holds (M : List Byte) (p : Option Pending) (s : State) : Prop where
  buf_wf : Memory.wf s.buf
  tracks : Tracks M s
  pending : s.pending = p
  no_error : s.err = false

/-- What the core holds does not depend on the host's elements. -/
theorem Holds.with_host {M : List Byte} {p : Option Pending} {s : State} (h : Holds M p s) (d : Word) (evs : List Event)
    (log : List Word) : Holds M p { s with dataIn := d, schedule := evs, readLog := log } where
  buf_wf := h.buf_wf
  tracks := tracks_of_eq h.tracks rfl rfl rfl rfl
  pending := h.pending
  no_error := h.no_error

/-- Every command but INIT, accepted, is pending and changes nothing else (R75). -/
theorem Holds.accept {M : List Byte} {s : State} (h : Holds M none s) {i : Instr} (hi : i ≠ .init) :
    Holds M (some ⟨i, s.dataIn⟩) (accept i s) where
  buf_wf := by simpa using h.buf_wf
  tracks := tracks_of_eq h.tracks (by simp) (by simp) (by simp) (by simp)
  pending := accept_pending s i
  no_error := by simpa [hi] using h.no_error

/-- A performed INIT leaves the empty message (R80). -/
theorem exec_init_holds {s : State} (hw : Memory.wf s.buf) (herr : s.err = false) :
    ∃ t, exec .init s = .next t ∧ Holds [] none t :=
  ⟨_, exec_init hw, resetMeetsTheInvariant.buf_wf, tracks_nil rfl rfl rfl, rfl, herr⟩

/-- A performed UPDATE appends the lanes latched with it (R82). -/
theorem exec_update_holds {M : List Byte} {nb : BitVec 3} {d : Word} {s : State} (hnb : nb.toNat ≤ 4)
    (h : Holds M (some ⟨.update nb, d⟩) s) : ∃ t, exec (.update nb) s = .next t ∧ Holds (M ++ lanes nb d) none t := by
  refine ⟨_, exec_update hnb h.no_error, ?_⟩
  rw [operand_of_pending s h.pending]
  exact {
    buf_wf := foldl_appendByte_wf _ s h.buf_wf
    tracks := tracks_of_eq (tracks_foldl_appendByte h.buf_wf h.tracks _) rfl rfl rfl rfl
    pending := rfl
    no_error := by simpa using h.no_error }

/-- The core holds `M`, and DIGEST holds the digest of `M`: what a FINALIZE leaves (R84). -/
structure HoldsDigest (M : List Byte) (s : State) : Prop extends Holds M none s where
  digest : s.digest = sha256 M
  valid : s.dv = true

theorem HoldsDigest.with_host {M : List Byte} {s : State} (h : HoldsDigest M s) (d : Word) (evs : List Event)
    (log : List Word) : HoldsDigest M { s with dataIn := d, schedule := evs, readLog := log } where
  toHolds := h.toHolds.with_host d evs log
  digest := h.digest
  valid := h.valid

/-- A performed FINALIZE leaves the digest of the message (R84, R115). -/
theorem exec_finalize_holds {M : List Byte} {p : Option Pending} {s : State} (h : Holds M p s) :
    ∃ t, exec .finalize s = .next t ∧ HoldsDigest M t :=
  ⟨_, exec_finalize h.no_error, ⟨h.buf_wf, tracks_of_eq h.tracks rfl rfl rfl rfl, rfl, h.no_error⟩,
    h.tracks.sha256Final_eq, rfl⟩

/-! ### Runs of turns -/

/-- From every state where `P` holds and the turns `evs` come next, their run leads to a state where `Q` holds. -/
def Turns (P : State → Prop) (evs : List Event) (Q : State → Prop) : Prop :=
  ∀ s rest, P s → s.schedule = evs ++ rest → ∃ t, runSteps evs.length s = .next t ∧ t.schedule = rest ∧ Q t

/-- A property that no change of the turns to come and of what the host has read touches. -/
def IgnoresReads (P : State → Prop) : Prop :=
  ∀ s evs log, P s → P { s with schedule := evs, readLog := log }

theorem Turns.append {P Q R : State → Prop} {evs evs' : List Event} (h : Turns P evs Q) (h' : Turns Q evs' R) :
    Turns P (evs ++ evs') R := by
  intro s rest hs hsched
  obtain ⟨t, hrun, ht, hQ⟩ := h s (evs' ++ rest) hs (by rw [hsched, List.append_assoc])
  obtain ⟨u, hrun', hu, hR⟩ := h' t rest hQ ht
  exact ⟨u, by rw [List.length_append, runSteps_add hrun, hrun'], hu, hR⟩

/-- The run of one turn is a step. -/
theorem turns_singleton {P Q : State → Prop} {ev : Event}
    (h : ∀ s, P s → ∀ rest, ∃ t, takeTurn ev { s with schedule := rest } = .next t ∧ Q t) : Turns P [ev] Q := by
  intro s rest hs hsched
  obtain ⟨t, ht, hQ⟩ := h s hs rest
  have hstep : step s = .next t := (step_of_schedule hsched).trans ht
  exact ⟨t, runSteps_succ hstep, by rw [step_schedule hstep, hsched]; rfl, hQ⟩

/-- A word that decodes to `i`, written to an idle core, is accepted (R75). -/
theorem turns_issue {P Q : State → Prop} {i : Instr} (hi : i.wf = true) (hidle : ∀ s, P s → s.pending = none)
    (h : ∀ s, P s → ∀ rest, Q (accept i { s with schedule := rest })) : Turns P [.write 0 (encode i)] Q :=
  turns_singleton fun s hs rest =>
    ⟨_, congrArg Host.Outcome.next (issue_encode (s := { s with schedule := rest }) (hidle s hs) hi), h s hs rest⟩

/-- Reads of the window change nothing but the host's record of them (R47). -/
theorem runSteps_reads (idxs : List (BitVec 4)) {s : State} {rest : List Event}
    (h : s.schedule = idxs.map .read ++ rest) :
    runSteps idxs.length s =
      .next { s with schedule := rest, readLog := (idxs.map (regRead · s)).reverse ++ s.readLog } := by
  induction idxs generalizing s with
  | nil => rw [List.map_nil, List.nil_append] at h; subst h; rfl
  | cons idx idxs ih =>
    rw [List.length_cons, runSteps_succ (step_of_schedule h), ih rfl]
    simp only [regRead_with_outside, List.map_cons, List.reverse_cons, List.append_assoc, List.singleton_append]

theorem turns_reads {P : State → Prop} (hP : IgnoresReads P) (idxs : List (BitVec 4)) : Turns P (idxs.map .read) P :=
  fun s _ hs hsched => ⟨_, by rw [List.length_map, runSteps_reads idxs hsched], rfl, hP s _ _ hs⟩

/-- `wait` (R74), whatever the number of polls: only the core's turn counts. -/
theorem turns_wait {P Q : State → Prop} (hP : IgnoresReads P) (hQ : IgnoresReads Q) (h : Turns P [.perform] Q)
    (polls : Nat) : Turns P (waitTurns polls) Q := by
  have hpoll : Turns P (List.replicate polls (.read 2)) P := by
    simpa only [List.map_replicate] using turns_reads hP (List.replicate polls 2)
  exact hpoll.append (h.append (turns_reads hQ [2]))

/-- The core's turn on the pending command (R76). -/
theorem turns_perform {P Q : State → Prop} {i : Instr} (hP : IgnoresReads P)
    (hpending : ∀ s, P s → ∃ d, s.pending = some ⟨i, d⟩) (h : ∀ s, P s → ∃ t, exec i s = .next t ∧ Q t) :
    Turns P [.perform] Q := by
  refine turns_singleton fun s hs rest => ?_
  obtain ⟨d, hd⟩ := hpending s hs
  obtain ⟨t, ht, hQ⟩ := h _ (hP s rest s.readLog hs)
  exact ⟨t, by simpa only [takeTurn, coreTurn, hd] using ht, hQ⟩

/-! ### The lines of `hash "M"` -/

theorem ignoresReads_holds (M : List Byte) (p : Option Pending) : IgnoresReads (Holds M p) :=
  fun s evs log h => h.with_host s.dataIn evs log

theorem ignoresReads_holdsDigest (M : List Byte) : IgnoresReads (HoldsDigest M) :=
  fun s evs log h => h.with_host s.dataIn evs log

/-- A canonical BUF, no error, and an INIT pending: what the host's `init` leaves in any idle state (R75, R80). -/
def StartsOver (s : State) : Prop := Memory.wf s.buf ∧ s.err = false ∧ ∃ d, s.pending = some ⟨.init, d⟩

/-- `init` and its `wait` start the empty message, an error recorded before among what they clear (R80, R131). -/
theorem turns_init (polls : Nat) :
    Turns (fun s => Memory.wf s.buf ∧ s.pending = none) ([Line.event .init] ++ waitTurns polls) (Holds [] none) := by
  have hissue : Turns (fun s => Memory.wf s.buf ∧ s.pending = none) [Line.event .init] StartsOver :=
    turns_issue (i := .init) rfl (fun s hs => hs.2) fun s hs rest => ⟨hs.1, rfl, s.dataIn, rfl⟩
  have hignores : IgnoresReads StartsOver := fun _ _ _ h => h
  refine hissue.append (turns_wait hignores (ignoresReads_holds [] none) (turns_perform (i := .init) hignores ?_ ?_) polls)
  · exact fun s ⟨_, _, hp⟩ => hp
  · exact fun s ⟨hw, herr, _⟩ => exec_init_holds hw herr

/-- `put N, v` appends the first `N` lanes of `v` (R74, R82). -/
theorem turns_put (M : List Byte) (polls : Nat) (n : Fin 5) (v : Word) :
    Turns (Holds M none) (putTurns polls n v) (Holds (M ++ (bytesBe32 v).take n) none) := by
  have hn : (BitVec.ofNat 3 n.val).toNat = n.val := by rw [BitVec.toNat_ofNat]; omega
  have hnb : (BitVec.ofNat 3 n.val).toNat ≤ 4 := by omega
  have hdata : Turns (Holds M none) [Line.event (.wr .dataIn v)] (fun s => Holds M none s ∧ s.dataIn = v) :=
    turns_singleton fun s hs rest => ⟨_, rfl, hs.with_host v rest s.readLog, rfl⟩
  have hissue : Turns (fun s => Holds M none s ∧ s.dataIn = v) [Line.event (.update n)]
      (Holds M (some ⟨.update (BitVec.ofNat 3 n.val), v⟩)) := by
    rw [event_update]
    refine turns_issue (update_wf hnb) (fun s hs => hs.1.pending) fun s ⟨hs, hv⟩ rest => ?_
    exact hv ▸ (hs.with_host s.dataIn rest s.readLog).accept (by simp)
  have hperform : Turns (Holds M (some ⟨.update (BitVec.ofNat 3 n.val), v⟩)) [.perform]
      (Holds (M ++ (bytesBe32 v).take n) none) := by
    refine turns_perform (ignoresReads_holds _ _) (fun s hs => ⟨v, hs.pending⟩) fun s hs => ?_
    simpa only [lanes, hn] using exec_update_holds hnb hs
  exact (hdata.append hissue).append (turns_wait (ignoresReads_holds _ _) (ignoresReads_holds _ _) hperform polls)

/-- The first `N` of the bytes that the operand of a `put` packs are appended (R13, R50). -/
theorem turns_put_be32 (M : List Byte) (polls : Nat) (n : Fin 5) (a b c d : Byte) :
    Turns (Holds M none) (putTurns polls n (be32 a b c d)) (Holds (M ++ [a, b, c, d].take n) none) :=
  bytesBe32_be32 a b c d ▸ turns_put M polls n (be32 a b c d)

/-- `feed "bs"` appends the bytes, four at a time (R74). -/
theorem turns_feed (lat : Nat → Nat) (k : Nat) (bs M : List Byte) :
    Turns (Holds M none) (feedTurns lat k bs) (Holds (M ++ bs) none) := by
  induction k, bs using feedTurns.induct generalizing M with
  | case1 k => rw [List.append_nil]; exact turns_reads (ignoresReads_holds M none) []
  | case2 k a => exact turns_put_be32 M (lat k) 1 a 0 0 0
  | case3 k a b => exact turns_put_be32 M (lat k) 2 a b 0 0
  | case4 k a b c => exact turns_put_be32 M (lat k) 3 a b c 0
  | case5 k a b c d rest ih =>
    have hrun := (turns_put_be32 M (lat k) 4 a b c d).append (ih (M ++ [a, b, c, d]))
    rw [List.append_assoc] at hrun
    exact hrun

/-- A `rd` of a register by its name returns that register (R33, R47). -/
theorem regRead_index (r : Reg) (s : State) : regRead r.index s = readReg s r := by
  rw [regRead, ofIndex_index]

/-- The reads of DIGEST0 to DIGEST7 return the digest's words (R53). -/
theorem map_regRead_digest (s : State) :
    ((List.finRange 8).map fun i => Reg.index (.digest i)).map (regRead · s) = s.digest.toList := by
  rw [List.map_map]
  apply List.ext_getElem
  · simp
  · intro j hj hj'
    simp [regRead_index, readReg]

/-- `digest` ends with the digest of the message, the last eight reads being its words (R74). -/
theorem turns_digest (M : List Byte) (polls : Nat) :
    Turns (Holds M none) (digestTurns polls)
      (fun s => HoldsDigest M s ∧ (s.readLog.take 8).reverse = (sha256 M).toList) := by
  have hissue : Turns (Holds M none) [Line.event .finalize] (fun s => ∃ d, Holds M (some ⟨.finalize, d⟩) s) :=
    turns_issue (i := .finalize) rfl (fun s hs => hs.pending) fun s hs rest =>
      ⟨s.dataIn, (hs.with_host s.dataIn rest s.readLog).accept (by simp)⟩
  have hignores : IgnoresReads (fun s => ∃ d, Holds M (some ⟨.finalize, d⟩) s) :=
    fun s evs log ⟨d, hs⟩ => ⟨d, ignoresReads_holds M _ s evs log hs⟩
  have hperform : Turns (fun s => ∃ d, Holds M (some ⟨.finalize, d⟩) s) [.perform] (HoldsDigest M) :=
    turns_perform hignores (fun s ⟨d, hs⟩ => ⟨d, hs.pending⟩) fun s ⟨_, hs⟩ => exec_finalize_holds hs
  have hreads : Turns (HoldsDigest M) digestReads
      (fun s => HoldsDigest M s ∧ (s.readLog.take 8).reverse = (sha256 M).toList) := by
    intro s rest hs hsched
    refine ⟨_, runSteps_reads ((List.finRange 8).map fun i => Reg.index (.digest i)) hsched, rfl,
      ignoresReads_holdsDigest M s _ _ hs, ?_⟩
    rw [map_regRead_digest, List.take_left' (by simp), List.reverse_reverse, hs.digest]
  exact (hissue.append (turns_wait hignores (ignoresReads_holdsDigest M) hperform polls)).append hreads

/-- Settles O45: the run of the program is composed of the runs of its lines. -/
theorem hashSequenceGivesSha256 : Obligations.HashSequenceGivesSha256 := by
  intro s M initPolls finalPolls lat hinv hidle
  have hash := ((turns_init initPolls).append (turns_feed lat 0 M [])).append (turns_digest M finalPolls)
  obtain ⟨t, hrun, -, hdigest, hreads⟩ := hash { s with schedule := hashTurns initPolls finalPolls lat M } []
    ⟨hinv.buf_wf, hidle⟩ (List.append_nil _).symm
  exact ⟨t, hrun, hdigest.digest, hdigest.valid, hdigest.no_error, hdigest.pending, hdigest.tracks, hreads⟩

end Sys2Proof.Machine
end

section
/-! PROOFS. The streaming commands (40_stream_commands.md R75 to R88): the issue and the perform of each command as whole next
states, that a pending command is performed, and deliveries of a message. A delivery is described by the one state it comes
to, up to what belongs to the host; so two deliveries of the same bytes agree, and the message they stand for is
`tracks_foldl_appendByte`'s. -/

namespace Sys2Proof.Machine

/-! ### The issue of a command -/

/-- The host's write to CMD is the issue of the word (R48, R75). -/
theorem step_write_cmd {s : State} {w : Word} {rest : List Event} (h : s.schedule = .write 0 w :: rest) :
    step s = .next { issue w s with schedule := rest } :=
  (writeHasExactlyTheRuledEffect.1 s 0 w rest h).1 rfl

/-- The host's write of a well-formed command's own word to an idle core (R75). -/
theorem step_write_encode {s : State} {i : Instr} {rest : List Event} (hp : s.pending = none) (hi : i.wf = true)
    (h : s.schedule = .write 0 (encode i) :: rest) : step s = .next { accept i s with schedule := rest } := by
  rw [step_write_cmd h, issue_encode hp hi]

/-- Every command but INIT, accepted, is latched with DATA_IN and changes nothing else (R75). -/
theorem accept_of_ne_init {i : Instr} (hi : i ≠ .init) (s : State) :
    accept i s = { s with pending := some ⟨i, s.dataIn⟩ } := by
  cases i with
  | init => exact absurd rfl hi
  | nop | update nb | finalize => rfl

/-- Settles O11: each case of the issue, `recordError` and `accept` written out, and the frame of INIT's perform. -/
theorem cmdWriteIssuesByTheRule : Obligations.CmdWriteIssuesByTheRule := by
  refine ⟨fun s w rest h => ?_, fun s t h => ?frame⟩
  case frame =>
    obtain ⟨herr, hcode, -⟩ := exec_keeps_host h
    exact ⟨herr, hcode, exec_keeps_dv h (by simp)⟩
  rw [step_write_cmd h]
  refine ⟨fun hbusy => ?overrun, fun hp hd => ?illegal, fun hp hd => ?badLength, fun i hp hd hi => ?command,
    fun hp hd => ?init, fun t i hp hd ht => ?busy⟩
  case overrun =>
    obtain ⟨p, hp⟩ := Option.ne_none_iff_exists'.mp hbusy
    rw [issue_of_pending hp]
    rfl
  case illegal => rw [issue_of_illegal hp hd]; rfl
  case badLength => rw [issue_of_badLength hp hd]; rfl
  case command => rw [issue_of_decode hp hd, accept_of_ne_init hi]
  case init => rw [issue_of_decode hp hd]; rfl
  case busy =>
    obtain rfl := Host.Outcome.next.inj ht
    rw [status_getLsbD_zero, issue_of_decode hp hd, accept_pending]
    rfl

/-- Settles O12: the issue, the core's turn on a pending command, and the idle core's turn. -/
theorem stepRunsTheIssuedCommand : Obligations.StepRunsTheIssuedCommand := by
  refine ⟨fun s w i rest h hp hd => ?_, fun s i d rest hp h => step_perform hp h, fun s i d hp h => ?_,
    fun s rest hp h => ?_, fun s hp h => ?_⟩
  · exact ⟨_, step_issue hp h hd, accept_pending _ i, accept_schedule _ i⟩
  · simp [step_of_nil h, coreTurn, hp]
  · simp [step_of_schedule h, takeTurn, coreTurn, hp]
  · simp [step_of_nil h, coreTurn, hp]

/-! ### NOP and INIT -/

/-- Retiring the NOP that an idle core has accepted leaves the state as before (R79). -/
theorem retire_accept_nop {s : State} (hp : s.pending = none) : retire (accept .nop s) = s := by
  rw [accept_of_ne_init (by simp), retire, ← hp]

/-- An accepted NOP sets bit 0 of an idle core's STATUS and no other (R35, R79). -/
theorem status_accept_nop {s : State} (hp : s.pending = none) : (accept .nop s).status = s.status ||| 1 := by
  simp only [State.status, State.busy, accept_of_ne_init (i := .nop) (by simp), hp, flagWord]
  simp [BitVec.or_assoc, BitVec.or_comm]

/-- A word with OP 0 that is not NOP's has a nonzero NB or a nonzero RSV (R70). -/
theorem decode_of_op_zero {w : Word} (hop : w.toNat % 16 = 0) (hw : w ≠ 0) : decode w = .illegal := by
  have hne : w.toNat ≠ 0 := fun h => hw (BitVec.eq_of_toNat_eq h)
  exact decode_eq_illegal (by omega)

/-- Settles O20, one lemma for each clause. -/
theorem nopDoesNothing : Obligations.NopDoesNothing := by
  refine ⟨rfl, fun s => rfl, fun s rest hp h => ⟨⟨_, step_issue hp h (i := .nop) rfl, ?status⟩, ?run⟩, fun s hbusy => ?overrun,
    fun w s hop hw hp herr => ?illegal⟩
  case status => exact status_accept_nop hp
  case run =>
    have hretire : retire (accept .nop { s with schedule := rest }) = { s with schedule := rest } := retire_accept_nop hp
    exact runSteps_command (i := .nop) rfl hp h (hretire ▸ rfl)
  case overrun =>
    obtain ⟨p, hp⟩ := Option.ne_none_iff_exists'.mp hbusy
    rw [issue_of_pending hp]
    exact ⟨rfl, fun herr => by simp [herr, ErrName.code]⟩
  case illegal =>
    rw [issue_of_illegal hp (decode_of_op_zero hop hw)]
    exact ⟨rfl, by simp [herr, ErrName.code]⟩

/-- Settles O22: INIT's issue clears the error record and DV, its perform the rest. -/
theorem initLeavesTheResetState : Obligations.InitLeavesTheResetState :=
  fun _ _ hw hp h => runSteps_command (i := .init) rfl hp h (exec_init hw)

/-- Settles O23: the second word records OVERRUN on the error record that INIT's issue has cleared, and INIT's perform does not
write that record. -/
theorem overrunDuringInitSurvivesIt : Obligations.OverrunDuringInitSurvivesIt := by
  intro s w rest hw hp h
  have hoverrun : step { accept .init s with schedule := .write 0 w :: .perform :: rest } =
      .next { recordError .overrun (accept .init s) with schedule := .perform :: rest } := by
    rw [step_write_cmd rfl, issue_of_pending rfl]
    rfl
  have hperform : step { recordError .overrun (accept .init s) with schedule := .perform :: rest } =
      .next { State.reset with
        dataIn := s.dataIn, schedule := rest, readLog := s.readLog, err := true, errcode := 3 } :=
    (step_perform (p := ⟨.init, s.dataIn⟩) rfl rfl).trans
      (exec_init (s := { recordError .overrun (accept .init s) with schedule := rest }) hw)
  rw [runSteps_succ (step_write_encode hp rfl h), runSteps_succ hoverrun, runSteps_succ hperform, runSteps_zero]

/-! ### UPDATE and FINALIZE -/

/-- If an UPDATE answers a next state, its byte count is an UPDATE's, and it retires or appends its lanes (R82). -/
theorem exec_update_cases {nb : BitVec 3} {s t : State} (h : exec (.update nb) s = .next t) :
    nb.toNat ≤ 4 ∧ ((s.err = true ∧ t = retire s) ∨
      (s.err = false ∧ t = retire ((lanes nb s.operand).foldl appendByte s))) := by
  rcases exec_cases h with ⟨hi, -⟩ | ⟨hi, -⟩ | ⟨n, hi, hnb, herr, ht⟩ | ⟨n, hi, hnb, herr, ht⟩ | ⟨hi, -⟩ | ⟨hi, -⟩
  · cases hi
  · cases hi
  · cases hi; exact ⟨hnb, .inl ⟨herr, ht⟩⟩
  · cases hi; exact ⟨hnb, .inr ⟨herr, ht⟩⟩
  · cases hi
  · cases hi

/-- The perform of an UPDATE that is pending (R76, R82). -/
theorem exec_update_of_pending {nb : BitVec 3} {d : Word} {s : State} (hnb : nb.toNat ≤ 4)
    (hp : s.pending = some ⟨.update nb, d⟩) (herr : s.err = false) :
    exec (.update nb) s = .next (retire ((lanes nb d).foldl appendByte s)) := by
  rw [exec_update hnb herr, operand_of_pending s hp]

/-- Settles O24: the lanes fit below the block's end. -/
theorem updateBuffersItsBytes : Obligations.UpdateBuffersItsBytes := by
  intro s nb d hnb hp herr hfits
  have hsize : BitVec.ofNat 6 (s.bufsize.toNat + nb.toNat) = s.bufsize + nb.zeroExtend 6 := by
    apply BitVec.eq_of_toNat_eq
    simp only [BitVec.toNat_ofNat, BitVec.toNat_add, BitVec.toNat_setWidth]
    omega
  rw [exec_update_of_pending hnb hp herr, foldl_appendByte_of_fits _ _ (by rwa [length_lanes hnb]), length_lanes hnb, hsize]
  rfl

/-- Settles O25: the lanes reach the block's end. -/
theorem updateCompressesTheFullBlock : Obligations.UpdateCompressesTheFullBlock := by
  intro s nb d hw hnb hp herr hfull
  have hlen := length_lanes hnb d
  rw [exec_update_of_pending hnb hp herr, foldl_appendByte_of_reaches _ _ hw (by omega) (by omega), hlen]
  rfl

/-- Settles O26: the bytes of BUF by what appending leaves and writes, the rest by the frame of a perform. -/
theorem updateWritesOnlyItsLanes : Obligations.UpdateWritesOnlyItsLanes := by
  intro s t nb d hw hp h
  obtain ⟨herr, hcode, hdata, -, hsched, hlog⟩ := exec_keeps_host h
  have hdigest := exec_keeps_digest h (.inr ⟨nb, rfl⟩)
  have hdv := exec_keeps_dv h (by simp)
  obtain ⟨hnb, ⟨he, rfl⟩ | ⟨he, rfl⟩⟩ := exec_update_cases h
  · exact ⟨fun _ _ => rfl, fun _ _ => rfl, fun hne => by simp [he] at hne, hdigest, hdv, herr, hcode, hdata,
      hsched, hlog⟩
  · have hoperand : s.operand = d := operand_of_pending s hp
    have hlen := length_lanes hnb d
    refine ⟨fun a ha => ?other, fun hne => by simp [he] at hne, fun _ j hj => ?lane, hdigest, hdv, herr, hcode,
      hdata, hsched, hlog⟩
    case other =>
      rw [retire_buf, hoperand, foldl_appendByte_read_other _ s hw (hlen ▸ ha)]
    case lane =>
      rw [retire_buf, hoperand, foldl_appendByte_read_same _ s hw (by omega) (hlen ▸ hj), getD_lanes d (by omega) hj]

/-- Settles O29: with ERR = 1 a well-formed command other than INIT only retires. -/
theorem poisonedCommandsHaveNoEffect : Obligations.PoisonedCommandsHaveNoEffect :=
  fun _ herr => ⟨fun _ hnb => exec_of_err (update_wf hnb) (by simp) herr, exec_of_err rfl (by simp) herr⟩

/-- Settles O31: with ERR = 0 the perform is not poisoned. -/
theorem finalizeWritesDigestAndDv : Obligations.FinalizeWritesDigestAndDv :=
  fun _ herr => exec_finalize herr

/-- Settles O44: the digest function of a state that stands for `M` is the digest of `M`. -/
theorem finalizeGivesSha256OfTheMessage : Obligations.FinalizeGivesSha256OfTheMessage := by
  intro s M hw h herr
  obtain ⟨t, ht, hdigest⟩ := exec_finalize_holds (p := s.pending) ⟨hw, h, rfl, herr⟩
  exact ⟨t, ht, hdigest.digest, hdigest.valid, hdigest.tracks⟩

/-! ### The wait for a perform -/

/-- From a state that meets the invariant every turn has a next state: the pending command is one of the core's (R116). -/
theorem exists_step {s : State} (h : CoreInv s) : ∃ t, step s = .next t := by
  unfold step
  cases s.nextTurn with
  | write idx v => exact ⟨_, rfl⟩
  | read idx => exact ⟨_, rfl⟩
  | reset => exact ⟨_, rfl⟩
  | perform =>
    cases hp : s.pending with
    | none => exact ⟨s.dropTurn, by simp [takeTurn, coreTurn, hp]⟩
    | some p =>
      obtain ⟨t, ht⟩ := exec_total (h.pending_wf p hp) s.dropTurn
      exact ⟨t, by simpa [takeTurn, coreTurn, hp] using ht⟩

/-- The core's turn on a pending command performs it, and nothing is pending after it (R76, R116). -/
theorem exists_perform {s : State} {p : Pending} (h : CoreInv s) (hp : s.pending = some p) (hn : s.nextTurn = .perform) :
    ∃ t, exec p.cmd s.dropTurn = .next t ∧ step s = .next t ∧ t.pending = none := by
  obtain ⟨t, ht⟩ := exec_total (h.pending_wf p hp) s.dropTurn
  obtain ⟨-, -, -, hpending, -, -⟩ := exec_keeps_host ht
  exact ⟨t, ht, (step_of_nextTurn_perform hp hn).trans ht, hpending⟩

/-- A turn of the host leaves the command pending, and no reset on the schedule where there was none (R58). -/
theorem pending_of_host_step {s t : State} {p : Pending} (hp : s.pending = some p) (hreset : .reset ∉ s.schedule)
    (hn : s.nextTurn ≠ .perform) (h : step s = .next t) : t.pending = some p ∧ .reset ∉ t.schedule := by
  have hne : s.nextTurn ≠ .reset := fun hr => hreset (hr ▸ nextTurn_mem hn)
  refine ⟨(onlyPerformOrResetEndsPending s t p hp h).resolve_right fun ⟨_, hor⟩ => hor.elim hn hne, ?_⟩
  rw [step_schedule h]
  exact fun hr => hreset (List.mem_of_mem_tail hr)

/-- Settles O39, by induction on the number of turns fixed: each turn before the core's takes one off the schedule, and with
none left the core moves. -/
theorem pendingCommandIsPerformed : Obligations.PendingCommandIsPerformed := by
  intro s p hinv hp hreset
  induction hlen : s.schedule.length generalizing s with
  | zero =>
    have hn : s.nextTurn = .perform := by simp [State.nextTurn, List.length_eq_zero_iff.mp hlen]
    obtain ⟨t, ht⟩ := exists_perform hinv hp hn
    exact ⟨0, s, t, Nat.le_refl 0, rfl, hp, ht⟩
  | succ k ih =>
    by_cases hn : s.nextTurn = .perform
    · obtain ⟨t, ht⟩ := exists_perform hinv hp hn
      exact ⟨0, s, t, Nat.zero_le _, rfl, hp, ht⟩
    · obtain ⟨t, hstep⟩ := exists_step hinv
      obtain ⟨hpt, hresett⟩ := pending_of_host_step hp hreset hn hstep
      have hlent : t.schedule.length = k := by rw [step_schedule hstep, List.length_tail, hlen, Nat.add_sub_cancel]
      obtain ⟨n, u, v, hle, hrun, hrest⟩ := ih t (stepKeepsTheInvariant s t hinv hstep) hpt hresett hlent
      exact ⟨n + 1, u, v, Nat.succ_le_succ hle, (runSteps_succ hstep).trans hrun, hrest⟩

/-- Settles O41: the reads between the issue and the core's turn change only what the host has read. -/
theorem everyLatencyIsAdmitted : Obligations.EveryLatencyIsAdmitted := by
  intro s i n rest hp hi h
  have hreads := runSteps_reads (List.replicate n 2) (rest := .perform :: rest)
    (s := { accept i s with schedule := List.replicate n (.read 2) ++ .perform :: rest }) (by rw [List.map_replicate])
  rw [List.length_replicate, List.map_replicate, List.reverse_replicate, accept_readLog] at hreads
  refine ⟨{ accept i s with
    schedule := .perform :: rest, readLog := List.replicate n (accept i s).status ++ s.readLog }, ?run,
    accept_pending s i, rfl, ?busy, ?perform⟩
  case run => exact (runSteps_succ (step_write_encode hp hi h)).trans hreads
  case busy => rw [status_getLsbD_zero, accept_pending]; rfl
  case perform => exact step_perform (p := ⟨i, s.dataIn⟩) (accept_pending s i) rfl

/-! ### Deliveries -/

/-- `t` is `s` but for what belongs to the host: DATA_IN, the turns to come, and what has been read. -/
def SameButHost (s t : State) : Prop :=
  ∃ d evs log, t = { s with dataIn := d, schedule := evs, readLog := log }

theorem ignoresReads_sameButHost (s : State) : IgnoresReads (SameButHost s) := by
  rintro _ evs log ⟨d, -, -, rfl⟩
  exact ⟨d, evs, log, rfl⟩

/-- The word of a command other than INIT, written to an idle core, makes it pending with DATA_IN and changes nothing else of
the core (R75). -/
theorem turns_issue_sameButHost {s : State} {i : Instr} (hi : i.wf = true) (hne : i ≠ .init) (hp : s.pending = none)
    (v : Word) :
    Turns (fun t => SameButHost s t ∧ t.dataIn = v) [.write 0 (encode i)]
      (SameButHost { s with pending := some ⟨i, v⟩ }) := by
  refine turns_issue hi ?_ ?_
  · rintro _ ⟨⟨d, evs, log, rfl⟩, -⟩
    exact hp
  · rintro _ ⟨⟨d, evs, log, rfl⟩, rfl⟩ rest
    exact ⟨d, rest, log, by rw [accept_of_ne_init hne]⟩

/-- The core's turn, where the perform takes what is pending to `s'` whatever the host's elements are (R76). -/
theorem turns_perform_sameButHost {s s' : State} {p : Pending} (hp : s.pending = some p)
    (h : ∀ t, SameButHost s t → ∃ u, exec p.cmd t = .next u ∧ SameButHost s' u) :
    Turns (SameButHost s) [.perform] (SameButHost s') := by
  refine turns_perform (ignoresReads_sameButHost s) ?_ h
  rintro _ ⟨d, evs, log, rfl⟩
  exact ⟨p.data, hp⟩

/-- A command that R86 lets a delivery hold appends its payload, whatever the host's elements are (R79, R82). -/
theorem exec_delivered {s : State} {p : Pending} (hidle : s.pending = none) (herr : s.err = false) (hd : p.delivers = true)
    {t : State} (ht : SameButHost { s with pending := some p } t) :
    ∃ u, exec p.cmd t = .next u ∧ SameButHost (p.payload.foldl appendByte s) u := by
  obtain ⟨d, evs, log, rfl⟩ := ht
  obtain ⟨i, v⟩ := p
  cases i with
  | init => cases hd
  | finalize => cases hd
  | nop => exact ⟨_, rfl, d, evs, log, by rw [retire, ← hidle]; rfl⟩
  | update nb =>
    refine ⟨_, exec_update_of_pending (of_decide_eq_true hd) rfl herr, d, evs, log, ?_⟩
    have hkept := (foldl_appendByte_pending (lanes nb v) s).trans hidle
    rw [foldl_appendByte_with (lanes nb v) s (some ⟨.update nb, v⟩) d evs log, retire, ← hkept]
    rfl

/-- A command of a delivery is well formed and is not INIT (R86). -/
theorem wf_of_delivers {p : Pending} (hd : p.delivers = true) : p.cmd.wf = true ∧ p.cmd ≠ .init := by
  obtain ⟨i, v⟩ := p
  cases i with
  | init | finalize => cases hd
  | nop => exact ⟨rfl, by simp⟩
  | update nb => exact ⟨hd, by simp⟩

/-- A delivery appends the bytes its commands carry, in order (R82, R86). -/
theorem turns_delivery {cs : List Pending} {s : State} (hp : s.pending = none) (herr : s.err = false)
    (hcs : ∀ p ∈ cs, p.delivers = true) :
    Turns (SameButHost s) (deliveryTurns cs) (SameButHost ((cs.flatMap Pending.payload).foldl appendByte s)) := by
  induction cs generalizing s with
  | nil => exact turns_reads (ignoresReads_sameButHost s) []
  | cons p cs ih =>
    obtain ⟨hd, hcs⟩ := List.forall_mem_cons.mp hcs
    obtain ⟨hi, hne⟩ := wf_of_delivers hd
    have hdata : Turns (SameButHost s) [.write 1 p.data] (fun t => SameButHost s t ∧ t.dataIn = p.data) := by
      refine turns_singleton ?_
      rintro _ ⟨d, evs, log, rfl⟩ rest
      exact ⟨_, rfl, ⟨p.data, rest, log, rfl⟩, rfl⟩
    have hissue := turns_issue_sameButHost hi hne hp p.data
    have hperform : Turns (SameButHost { s with pending := some p }) [.perform]
        (SameButHost (p.payload.foldl appendByte s)) :=
      turns_perform_sameButHost rfl fun t ht => exec_delivered hp herr hd ht
    have hrest := ih (s := p.payload.foldl appendByte s) (by simpa using hp) (by simpa using herr) hcs
    rw [List.flatMap_cons, List.foldl_append]
    exact ((hdata.append hissue).append hperform).append hrest

/-- What FINALIZE makes of a core without an error, but for what is pending: the digest so far and DV (R84). -/
def finalized (s : State) : State :=
  { s with
    digest := sha256Final s.h (s.buf.readBytes 0 s.bufsize.toNat) (s.total.toNat + s.bufsize.toNat)
    dv := true }

/-- FINALIZE, issued to an idle core without an error and performed (R75, R84). -/
theorem turns_finalize {s : State} (hp : s.pending = none) (herr : s.err = false) :
    Turns (SameButHost s) [.write 0 (encode .finalize), .perform] (SameButHost (finalized s)) := by
  intro t rest ht
  have hissue := turns_issue_sameButHost (i := .finalize) rfl (by simp) hp t.dataIn
  have hperform : Turns (SameButHost { s with pending := some ⟨.finalize, t.dataIn⟩ }) [.perform]
      (SameButHost (finalized s)) := by
    refine turns_perform_sameButHost rfl ?_
    rintro _ ⟨d, evs, log, rfl⟩
    exact ⟨_, exec_finalize herr, d, evs, log, by rw [retire, ← hp]; rfl⟩
  exact hissue.append hperform t rest ⟨ht, rfl⟩

/-- A delivery has three turns for each of its commands. -/
theorem length_deliveryTurns (cs : List Pending) : (deliveryTurns cs).length = 3 * cs.length := by
  simp [deliveryTurns, Nat.mul_comm]

/-- A delivery and a FINALIZE from an idle core without an error, as a run. -/
theorem runSteps_delivery_finalize {s : State} {cs : List Pending} (hp : s.pending = none) (herr : s.err = false)
    (hcs : ∀ p ∈ cs, p.delivers = true) :
    ∃ t,
      runSteps (3 * cs.length + 2)
        { s with schedule := deliveryTurns cs ++ [.write 0 (encode .finalize), .perform] } = .next t ∧
      SameButHost (finalized ((cs.flatMap Pending.payload).foldl appendByte s)) t := by
  have hturns := (turns_delivery hp herr hcs).append (turns_finalize (by simpa using hp) (by simpa using herr))
  obtain ⟨t, hrun, -, ht⟩ := hturns { s with schedule := deliveryTurns cs ++ [.write 0 (encode .finalize), .perform] } []
    ⟨_, _, _, rfl⟩ (List.append_nil _).symm
  rw [List.length_append, length_deliveryTurns] at hrun
  exact ⟨t, hrun, ht⟩

/-- Settles O46: both deliveries come to the one state that the bytes lead to, but for the host's elements. -/
theorem streamingEquivalence : Obligations.StreamingEquivalence := by
  intro s cs cs' _ hp herr hcs hcs' hbytes
  obtain ⟨t, hrun, d, evs, log, rfl⟩ := runSteps_delivery_finalize hp herr hcs
  obtain ⟨t', hrun', d', evs', log', rfl⟩ := runSteps_delivery_finalize hp herr hcs'
  refine ⟨_, _, hrun, hrun', ?_⟩
  rw [hbytes]
  exact ⟨rfl, rfl, rfl, rfl, rfl⟩

/-- A delivery and a FINALIZE, from a core that holds `M`, leave the digest of `M` with the bytes delivered (R88, R115). -/
theorem runSteps_delivery_digest {M : List Byte} {s : State} {cs : List Pending} (h : Holds M none s)
    (hcs : ∀ p ∈ cs, p.delivers = true) :
    ∃ t,
      runSteps (3 * cs.length + 2)
        { s with schedule := deliveryTurns cs ++ [.write 0 (encode .finalize), .perform] } = .next t ∧
      HoldsDigest (M ++ cs.flatMap Pending.payload) t := by
  obtain ⟨t, hrun, d, evs, log, rfl⟩ := runSteps_delivery_finalize h.pending h.no_error hcs
  have htracks := tracks_foldl_appendByte h.buf_wf h.tracks (cs.flatMap Pending.payload)
  refine ⟨_, hrun, HoldsDigest.with_host ?_ d evs log⟩
  exact {
    buf_wf := foldl_appendByte_wf _ s h.buf_wf
    tracks := tracks_of_eq htracks rfl rfl rfl rfl
    pending := (foldl_appendByte_pending _ s).trans h.pending
    no_error := (foldl_appendByte_err _ s).trans h.no_error
    digest := htracks.sha256Final_eq
    valid := rfl }

/-- Settles O47: the first FINALIZE is the one after the empty delivery, and what it leaves still holds `X`. -/
theorem updateAfterFinalizeContinues : Obligations.UpdateAfterFinalizeContinues := by
  intro s X cs hinv htracks hp herr hcs
  obtain ⟨t, hrun, ht⟩ := runSteps_delivery_digest (cs := []) ⟨hinv.buf_wf, htracks, hp, herr⟩ (by simp)
  rw [List.flatMap_nil, List.append_nil] at ht
  obtain ⟨u, hrun', hu⟩ := runSteps_delivery_digest ht.toHolds hcs
  exact ⟨t, u, hrun, ht.digest, ht.valid, hrun', hu.digest, hu.valid⟩

end Sys2Proof.Machine
end

section
/-! PROOFS. The compression function (41_compression.md R94 to R101): its functions by bit, the schedule's recurrence, and the
rounds by index. The rules' examples are closed facts of single words, rounds and blocks, and are evaluated. -/

namespace Sys2Proof.Machine

/-! ### The bitwise functions, by bit -/

/-- Choose takes `y`'s bit or `z`'s, as `x`'s bit says (R94). -/
theorem getLsbD_ch (x y z : Word) (i : Nat) :
    (ch x y z).getLsbD i = if x.getLsbD i then y.getLsbD i else z.getLsbD i := by
  have choice : ∀ a b c : Bool, ((a && b) ^^ (!a && c)) = if a then b else c := by decide
  by_cases hi : i < 32
  · simpa [ch, hi] using choice x[i] y[i] z[i]
  · simp [ch, Nat.le_of_not_lt hi]

/-- Majority takes the bit that at least two of its operands have (R95). -/
theorem getLsbD_maj (x y z : Word) (i : Nat) :
    (maj x y z).getLsbD i = decide (2 ≤ (x.getLsbD i).toNat + (y.getLsbD i).toNat + (z.getLsbD i).toNat) := by
  have majority : ∀ a b c : Bool, ((a && b) ^^ (a && c) ^^ (b && c)) = decide (2 ≤ a.toNat + b.toNat + c.toNat) := by decide
  simpa [maj] using majority (x.getLsbD i) (y.getLsbD i) (z.getLsbD i)

/-- A word of ones chooses all of the first operand (R94). -/
theorem ch_allOnes (y z : Word) : ch (BitVec.allOnes 32) y z = y := by
  rw [ch, BitVec.allOnes_and, BitVec.not_allOnes, BitVec.zero_and, BitVec.xor_zero]

/-- A word of zeros chooses all of the second operand (R94). -/
theorem ch_zero (y z : Word) : ch 0#32 y z = z := by
  rw [ch, BitVec.zero_and, BitVec.not_zero, BitVec.allOnes_and, BitVec.zero_xor]

/-- Between a word of ones and a word of zeros the third operand is the majority (R95). -/
theorem maj_allOnes_zero (z : Word) : maj (BitVec.allOnes 32) 0#32 z = z := by
  rw [maj, BitVec.and_zero, BitVec.allOnes_and, BitVec.zero_and, BitVec.zero_xor, BitVec.xor_zero]

/-- Settles O52: the formulas are the definitions, and each other claim over all words is a lemma of its own. -/
theorem chooseAndMajorityByBit : Obligations.ChooseAndMajorityByBit :=
  ⟨fun _ _ _ => rfl, getLsbD_ch, fun y z => ⟨ch_allOnes y z, ch_zero y z⟩, by decide,
    fun _ _ _ => rfl, getLsbD_maj, maj_allOnes_zero, by decide⟩

/-- R12's rotation is the library's. -/
theorem rotr_eq_rotateRight (x : Word) {n : Nat} (hn : n < 32) : rotr x n = x.rotateRight n := by
  rw [BitVec.rotateRight_def, Nat.mod_eq_of_lt hn, rotr]

/-- A rotation takes bit `(i + n) mod 32` (R12). -/
theorem getLsbD_rotr (x : Word) {n i : Nat} (hn : n < 32) (hi : i < 32) :
    (rotr x n).getLsbD i = x.getLsbD ((i + n) % 32) := by
  rw [rotr_eq_rotateRight x hn, BitVec.getLsbD_rotateRight, Nat.mod_eq_of_lt hn]
  by_cases h : i < 32 - n
  · rw [decide_eq_true h, cond_true, Nat.mod_eq_of_lt (by omega), Nat.add_comm]
  · rw [decide_eq_false h, cond_false, decide_eq_true hi, Bool.true_and]
    congr 1; omega

/-- Settles O53: each sigma is the exclusive or of three rotations, or of two and a shift. -/
theorem sigmasByBit : Obligations.SigmasByBit := by
  refine ⟨fun x n i _ hn hi => getLsbD_rotr x hn hi, fun x i hi => ?_, by decide⟩
  have rotation := fun (n : Nat) (hn : n < 32) => getLsbD_rotr x hn hi
  simp only [bigSigma0, bigSigma1, smallSigma0, smallSigma1, BitVec.getLsbD_xor, BitVec.getLsbD_ushiftRight, rotation,
    Nat.reduceLT, Nat.add_comm, and_self]

/-! ### The schedule -/

/-- The word `t` of the first sixteen is the block's (R100). -/
theorem getD_messageSchedule_of_lt {blk : List Byte} (hblk : blk.length = 64) {t : Nat} (ht : t < 16) :
    (messageSchedule blk).getD t 0 =
      be32 (blk.getD (4 * t) 0) (blk.getD (4 * t + 1) 0) (blk.getD (4 * t + 2) 0) (blk.getD (4 * t + 3) 0) := by
  have hwords := length_blockWords 16 hblk
  rw [messageSchedule, getD_extendSchedule_of_lt _ _ (by omega), getD_blockWords t (by omega)]

/-- The next word after the first `t` of a longer list, by the list's own indices (R100). -/
theorem nextWord_take {w : List Word} {t : Nat} (h16 : 16 ≤ t) (ht : t ≤ w.length) :
    nextWord (w.take t) =
      smallSigma1 (w.getD (t - 2) 0) + w.getD (t - 7) 0 + smallSigma0 (w.getD (t - 15) 0) + w.getD (t - 16) 0 := by
  have before : ∀ k, 0 < k → (w.take t).getD (t - k) 0 = w.getD (t - k) 0 := fun k hk => by
    rw [List.getD_eq_getElem?_getD, List.getElem?_take_of_lt (by omega), ← List.getD_eq_getElem?_getD]
  rw [nextWord, List.length_take_of_le ht, before 2 (by decide), before 7 (by decide), before 15 (by decide),
    before 16 (by decide)]

/-- The words after the first sixteen follow the recurrence (R100). -/
theorem getD_messageSchedule_of_ge {blk : List Byte} (hblk : blk.length = 64) {t : Nat} (h16 : 16 ≤ t) (ht : t < 64) :
    (messageSchedule blk).getD t 0 =
      smallSigma1 ((messageSchedule blk).getD (t - 2) 0) + (messageSchedule blk).getD (t - 7) 0 +
        smallSigma0 ((messageSchedule blk).getD (t - 15) 0) + (messageSchedule blk).getD (t - 16) 0 := by
  have hwords := length_blockWords 16 hblk
  have hlen := length_messageSchedule hblk
  rw [← nextWord_take h16 (by omega)]
  exact getD_extendSchedule_next 48 _ (by omega) (by omega)

/-- Settles O54, one lemma for each of the two loops. -/
theorem scheduleFollowsTheRecurrence : Obligations.ScheduleFollowsTheRecurrence :=
  ⟨fun _ hblk => ⟨length_messageSchedule hblk, fun _ => getD_messageSchedule_of_lt hblk,
    fun _ => getD_messageSchedule_of_ge hblk⟩, by decide +kernel⟩

/-! ### The rounds -/

/-- The working variables after the first `t` rounds over the schedule `w`, from `v` (R101). -/
def workAfter (w : List Word) (v : Work) (t : Nat) : Work := ((roundK.zip w).take t).foldl hashRound v

/-- Round `t` takes `K[t]` and `W[t]` (R101). -/
theorem workAfter_succ {w : List Word} (hw : w.length = 64) (v : Work) {t : Nat} (ht : t < 64) :
    workAfter w v (t + 1) = hashRound (workAfter w v t) (roundK.getD t 0, w.getD t 0) := by
  have hK : t < roundK.length := ht
  have hW : t < w.length := by omega
  have hzip : t < (roundK.zip w).length := by simp; omega
  rw [workAfter, List.take_succ_eq_append_getElem hzip, List.foldl_concat, List.getElem_zip,
    ← List.getD_eq_getElem _ 0 hK, ← List.getD_eq_getElem _ 0 hW]
  rfl

/-- All 64 rounds (R101). -/
theorem workAfter_all {w : List Word} (hw : w.length = 64) (v : Work) : workAfter w v 64 = rounds w v := by
  rw [workAfter, List.take_of_length_le (by simp [hw]), rounds]

/-- A round is its two temporaries, computed first, and the shift of the working variables (R101). -/
theorem hashRound_temps (v : Work) (k w : Word) :
    ∃ t1 t2 : Word,
      t1 = v.h + bigSigma1 v.e + ch v.e v.f v.g + k + w ∧ t2 = bigSigma0 v.a + maj v.a v.b v.c ∧
      hashRound v (k, w) = ⟨t1 + t2, v.a, v.b, v.c, v.d + t1, v.e, v.f, v.g⟩ :=
  ⟨temp1 v k w, temp2 v, rfl, rfl, rfl⟩

/-- Settles O55: the working variables by index are `workAfter`, from the register file's words on. -/
theorem compressRunsTheSixtyFourRounds : Obligations.CompressRunsTheSixtyFourRounds := by
  refine ⟨fun h blk hblk => ⟨workAfter (messageSchedule blk) (startWork h), rfl, fun t ht => ?_, ?_⟩,
    by decide, by decide, by decide, by decide +kernel⟩
  · rw [workAfter_succ (length_messageSchedule hblk) _ ht]
    exact hashRound_temps _ _ _
  · rw [compress, addWork, ← workAfter_all (length_messageSchedule hblk)]

end Sys2Proof.Machine
end

section
/-! PROOFS. Padding and the digest (42_padding_digest.md R105 to R114): the padded tail as one block or two, the digest function
over them, a repeated FINALIZE, and the digest as bytes. -/

namespace Sys2Proof.Machine

/-! ### The padded tail -/

/-- The zeros bring the tail to 56 modulo 64 (R105, R106). -/
theorem tail_with_zeroCount (n : Nat) : (n + 1 + zeroCount n) % 64 = 56 := by
  simp only [zeroCount]; omega

/-- No fewer zeros bring the tail to 56 modulo 64 (R106). -/
theorem zeroCount_le {n z : Nat} (h : (n + 1 + z) % 64 = 56) : zeroCount n ≤ z := by
  simp only [zeroCount]; omega

/-- A tail of up to 55 bytes is padded to one block (R108). -/
theorem length_pad_of_le {B : List Byte} (h : B.length ≤ 55) (len : BitVec 64) : (pad B len).length = 64 := by
  rw [length_pad, zeroCount_of_le h]; omega

/-- A tail of 56 to 63 bytes is padded to two blocks (R108). -/
theorem length_pad_of_ge {B : List Byte} (h1 : 56 ≤ B.length) (h2 : B.length ≤ 63) (len : BitVec 64) :
    (pad B len).length = 128 := by
  rw [length_pad, zeroCount_of_ge h1 h2]; omega

/-- The zeros of a long tail fill its block and the next up to the length field (R108). -/
theorem pad_eq_blocks {B : List Byte} (h1 : 56 ≤ B.length) (h2 : B.length ≤ 63) (len : BitVec 64) :
    pad B len =
      (B ++ [0x80] ++ List.replicate (63 - B.length) 0x00) ++ (List.replicate 56 0x00 ++ bytesBe64 len) := by
  have hzeros : 119 - B.length = (63 - B.length) + 56 := by omega
  simp only [pad, zeroCount_of_ge h1 h2, hzeros, List.replicate_add, List.append_assoc]

/-- Settles O56: the zero count's two properties, the short tail as it is, and the long one cut after its first block. -/
theorem paddingFillsOneOrTwoBlocks : Obligations.PaddingFillsOneOrTwoBlocks := by
  intro B len h63
  refine ⟨⟨tail_with_zeroCount _, fun z => zeroCount_le⟩, fun hshort => ?_, fun hlong => ?_⟩
  · exact ⟨zeroCount_of_le hshort, length_pad_of_le hshort len, by rw [pad, zeroCount_of_le hshort]⟩
  · have hfirst : (B ++ [0x80] ++ List.replicate (63 - B.length) 0x00).length = 64 := by simp; omega
    refine ⟨zeroCount_of_ge hlong h63, length_pad_of_ge hlong h63 len, ?_, ?_⟩ <;> rw [pad_eq_blocks hlong h63]
    · exact List.take_left' hfirst
    · exact List.drop_left' hfirst

/-! ### The digest function -/

/-- Settles O57: the length of the padded tail decides how many blocks are compressed. -/
theorem digestFunctionChainsThePaddedBlocks : Obligations.DigestFunctionChainsThePaddedBlocks := by
  intro h B L h63
  refine ⟨fun hshort => ?_, fun hlong => ?_, BitVec.toNat_ofNat _ _⟩
  · have hlen := length_pad_of_le hshort (lengthField L)
    simp [sha256Final, hlen, List.take_of_length_le]
  · simp [sha256Final, length_pad_of_ge hlong h63 (lengthField L)]

/-! ### A repeated FINALIZE -/

/-- A run of turns repeated. -/
theorem Turns.replicate {P : State → Prop} (hP : IgnoresReads P) {evs : List Event} (h : Turns P evs P) (n : Nat) :
    Turns P (List.replicate n evs).flatten P := by
  induction n with
  | zero => exact turns_reads hP []
  | succ n ih => exact h.append ih

/-- A NOP, issued to an idle core and performed, changes nothing (R79). -/
theorem turns_nop {P : State → Prop} (hP : IgnoresReads P) (hidle : ∀ s, P s → s.pending = none) :
    Turns P [.write 0 (encode .nop), .perform] P := by
  obtain ⟨-, -, hrun, -⟩ := nopDoesNothing
  exact fun s rest hs hsched => ⟨_, (hrun s rest (hidle s hs) hsched).2, rfl, hP s rest s.readLog hs⟩

/-- What is pending does not belong to the host. -/
theorem pending_of_sameButHost {s t : State} (h : SameButHost s t) : t.pending = s.pending := by
  obtain ⟨d, evs, log, rfl⟩ := h
  rfl

/-- The turns of a fixed schedule, run from a state with that schedule. -/
theorem Turns.run {P Q : State → Prop} {evs : List Event} (hP : IgnoresReads P) (h : Turns P evs Q) {s : State} (hs : P s) :
    ∃ t, runSteps evs.length { s with schedule := evs } = .next t ∧ Q t := by
  obtain ⟨t, hrun, -, hQ⟩ := h { s with schedule := evs } [] (hP s evs s.readLog hs) (List.append_nil _).symm
  exact ⟨t, hrun, hQ⟩

/-- FINALIZE writes nothing that its digest depends on (R111). -/
theorem finalized_finalized (s : State) : finalized (finalized s) = finalized s := rfl

/-- Settles O32: the first FINALIZE comes to `finalized s`, which the NOPs and the second one keep. -/
theorem repeatedFinalizeGivesTheSameDigest : Obligations.RepeatedFinalizeGivesTheSameDigest := by
  intro s n hp herr
  have hfirst := turns_finalize hp herr
  have hagain := turns_finalize (s := finalized s) hp herr
  have hnops := (turns_nop (ignoresReads_sameButHost (finalized s)) fun t ht =>
    (pending_of_sameButHost ht).trans hp).replicate (ignoresReads_sameButHost _) n
  obtain ⟨t, hrun, ht⟩ := hfirst.run (ignoresReads_sameButHost s) ⟨s.dataIn, s.schedule, s.readLog, rfl⟩
  obtain ⟨u, hrun', hu⟩ := (hnops.append hagain).run (ignoresReads_sameButHost _) ht
  rw [finalized_finalized] at hu
  refine ⟨t, u, hrun, ?_, ?_⟩
  · simpa [Nat.mul_comm] using hrun'
  · obtain ⟨d, evs, log, rfl⟩ := ht
    obtain ⟨d', evs', log', rfl⟩ := hu
    exact ⟨rfl, rfl, rfl, rfl, rfl, rfl⟩

/-! ### The digest as bytes -/

/-- Words as bytes, four for each. -/
theorem length_flatMap_bytesBe32 (ws : List Word) : (ws.flatMap bytesBe32).length = 4 * ws.length := by
  simp [Nat.mul_comm]

/-- Byte `j` of a word, the most significant first (R13). -/
theorem getD_bytesBe32 (w : Word) {j : Nat} (hj : j < 4) : (bytesBe32 w).getD j 0 = w.extractLsb' (24 - 8 * j) 8 :=
  getD_lanes (nb := 4) w hj hj

/-- Byte `4i + j` of words as bytes is byte `j` of word `i`. -/
theorem getD_flatMap_bytesBe32 (ws : List Word) {i j : Nat} (hi : i < ws.length) (hj : j < 4) :
    (ws.flatMap bytesBe32).getD (4 * i + j) 0 = (bytesBe32 ws[i]).getD j 0 := by
  induction ws generalizing i with
  | nil => cases hi
  | cons w ws ih =>
    rw [List.flatMap_cons]
    cases i with
    | zero =>
      rw [Nat.mul_zero, Nat.zero_add, List.getElem_cons_zero]
      exact List.getD_append _ _ _ _ hj
    | succ i =>
      rw [List.getD_append_right _ _ _ _ (by simp; omega), length_bytesBe32, List.getElem_cons_succ,
        ← ih (Nat.lt_of_succ_lt_succ hi)]
      congr 1; omega

/-- Settles O58: the digest is its eight registers as bytes. -/
theorem digestIsThirtyTwoBigEndianBytes : Obligations.DigestIsThirtyTwoBigEndianBytes := by
  refine fun d => ⟨?_, fun i j hj => ?_⟩
  · rw [digestBytes, length_flatMap_bytesBe32, Vector.length_toList]
  · rw [digestBytes, getD_flatMap_bytesBe32 _ (by simp) hj, getD_bytesBe32 _ hj, Vector.getElem_toList]
    rfl

end Sys2Proof.Machine
end

section
/-! PROOFS. Errors and the host's access by address (60_exceptions.md R116, R124, R126, R131, R136): every way a step can touch
the error record and DV, said once, with what follows for the first error, for what clears it and for DV; that the core never
stops; and the core that an address reaches. -/

namespace Sys2Proof.Machine

/-! ### The error record and DV -/

/-- A later error changes DV alone (R124). -/
theorem recordError_of_err {s : State} (herr : s.err = true) (e : ErrName) : recordError e s = { s with dv := false } := by
  rw [recordError, if_pos herr, ← herr]

/-- ERR, ERRCODE and DV are in `t` as they are in `s`. -/
def SameErrors (s t : State) : Prop := t.err = s.err ∧ t.errcode = s.errcode ∧ t.dv = s.dv

/-- Every command but INIT, accepted, leaves the error record and DV (R75). -/
theorem sameErrors_accept {i : Instr} (hi : i ≠ .init) (s : State) : SameErrors s (accept i s) := by
  rw [accept_of_ne_init hi]
  exact ⟨rfl, rfl, rfl⟩

/-- What a write to the port does to the error record and DV: only a write to CMD touches them, which records an error or
issues INIT to an idle core (R48, R75). -/
theorem regWrite_error_cases (idx : BitVec 4) (v : Word) (s : State) :
    (idx = 0 ∧ ∃ e, regWrite idx v s = recordError e s) ∨
    (idx = 0 ∧ s.pending = none ∧ v = encode .init ∧ regWrite idx v s = accept .init s) ∨
    SameErrors s (regWrite idx v s) := by
  rcases regWrite_cases idx v s with ⟨h0, hw⟩ | ⟨-, hw⟩ | ⟨-, -, hw⟩ <;> rw [hw]
  · rcases issue_cases v s with ⟨-, hi⟩ | ⟨-, -, hi⟩ | ⟨-, -, hi⟩ | ⟨hp, i, hd, hi⟩ <;> rw [hi]
    · exact .inl ⟨h0, _, rfl⟩
    · exact .inl ⟨h0, _, rfl⟩
    · exact .inl ⟨h0, _, rfl⟩
    · by_cases hinit : i = .init
      · subst hinit
        exact .inr (.inl ⟨h0, hp, (decode_iff_of_wf rfl v).mp hd, rfl⟩)
      · exact .inr (.inr (sameErrors_accept hinit s))
  · exact .inr (.inr ⟨rfl, rfl, rfl⟩)
  · exact .inr (.inr ⟨rfl, rfl, rfl⟩)

/-- What a perform does to the error record and DV: only FINALIZE without an error touches them, and it sets DV (R78, R84). -/
theorem exec_error_cases {i : Instr} {s t : State} (h : exec i s = .next t) :
    (i = .finalize ∧ s.err = false ∧ t.dv = true) ∨ SameErrors s t := by
  obtain ⟨herr, hcode, -⟩ := exec_keeps_host h
  by_cases hi : i = .finalize
  · subst hi
    cases he : s.err with
    | true =>
      obtain rfl := Host.Outcome.next.inj ((exec_of_err rfl (by simp) he).symm.trans h)
      exact .inr ⟨rfl, rfl, rfl⟩
    | false =>
      obtain rfl := Host.Outcome.next.inj ((exec_finalize he).symm.trans h)
      exact .inl ⟨rfl, rfl, rfl⟩
  · exact .inr ⟨herr, hcode, exec_keeps_dv h hi⟩

/-- Every way a step can touch the error record and DV: a reset, a recorded error, the issue of INIT to an idle core, and a
FINALIZE performed without an error (R27, R28). -/
theorem step_error_cases {s t : State} (h : step s = .next t) :
    (s.nextTurn = .reset ∧ t.dv = false) ∨
    (∃ w e, s.nextTurn = .write 0 w ∧ t = recordError e s.dropTurn) ∨
    (s.pending = none ∧ s.nextTurn = .write 0 (encode .init) ∧ t.dv = false) ∨
    (s.nextTurn = .perform ∧ s.err = false ∧ (∃ d, s.pending = some ⟨.finalize, d⟩) ∧ t.dv = true) ∨
    SameErrors s t := by
  rcases step_cases h with ⟨idx, v, hn, rfl⟩ | ⟨idx, -, rfl⟩ | ⟨hn, rfl⟩ | ⟨-, -, rfl⟩ | ⟨p, hn, hp, he⟩
  · rcases regWrite_error_cases idx v s.dropTurn with ⟨rfl, e, hw⟩ | ⟨rfl, hp, rfl, hw⟩ | hsame
    · exact .inr (.inl ⟨v, e, hn, hw⟩)
    · exact .inr (.inr (.inl ⟨hp, hn, by rw [hw]; rfl⟩))
    · exact .inr (.inr (.inr (.inr hsame)))
  · exact .inr (.inr (.inr (.inr ⟨rfl, rfl, rfl⟩)))
  · exact .inl ⟨hn, rfl⟩
  · exact .inr (.inr (.inr (.inr ⟨rfl, rfl, rfl⟩)))
  · rcases exec_error_cases he with ⟨hcmd, herr, hdv⟩ | hsame
    · exact .inr (.inr (.inr (.inl ⟨hn, herr, ⟨p.data, by rw [hp, ← hcmd]⟩, hdv⟩)))
    · exact .inr (.inr (.inr (.inr hsame)))

/-- A word that records an error while ERR = 1 changes DV alone (R124). -/
theorem issue_of_err {w : Word} {s : State} (herr : s.err = true) (h : s.pending ≠ none ∨ ∀ i, decode w ≠ .cmd i) :
    issue w s = { s with dv := false } := by
  rcases issue_cases w s with ⟨-, hi⟩ | ⟨-, -, hi⟩ | ⟨-, -, hi⟩ | ⟨hp, i, hd, -⟩
  · rw [hi, recordError_of_err herr]
  · rw [hi, recordError_of_err herr]
  · rw [hi, recordError_of_err herr]
  · exact absurd h (by simp [hp, hd])

/-- Settles O15: a recorded error written out, then every way a step can touch the error record. -/
theorem firstErrorWins : Obligations.FirstErrorWins := by
  refine ⟨fun s e herr => ⟨by simp [herr], rfl, rfl⟩, fun s w => issue_of_err, fun s t herr h hreset hinit => ?_⟩
  rcases step_error_cases h with ⟨hn, -⟩ | ⟨w, e, -, rfl⟩ | ⟨hp, hn, -⟩ | ⟨-, hok, -⟩ | ⟨hkeep, hcode, -⟩
  · exact absurd hn hreset
  · rw [recordError_of_err (s := s.dropTurn) herr]
    exact ⟨rfl, herr⟩
  · exact absurd ⟨hp, hn⟩ hinit
  · rw [herr] at hok; cases hok
  · exact ⟨hcode, hkeep.trans herr⟩

/-- Settles O16: every other step keeps the error record, by O15's last clause. -/
theorem onlyInitOrResetClearsTheError : Obligations.OnlyInitOrResetClearsTheError := by
  intro s t herr h hchange
  obtain ⟨-, -, hkeeps⟩ := firstErrorWins
  by_contra hother
  obtain ⟨hreset, hinit⟩ := not_or.mp hother
  obtain ⟨hcode, ht⟩ := hkeeps s t herr h hreset hinit
  rcases hchange with hclear | hne
  · rw [ht] at hclear; cases hclear
  · exact hne hcode

/-- Settles O17: of the ways a step can touch DV, FINALIZE's perform sets it and the others clear it. -/
theorem onlyFinalizeSetsDv : Obligations.OnlyFinalizeSetsDv := by
  intro s t h
  rcases step_error_cases h with
    ⟨hn, hdv⟩ | ⟨w, e, hn, rfl⟩ | ⟨hp, hn, hdv⟩ | ⟨hn, herr, hp, hdv⟩ | ⟨-, -, hdv⟩
  · exact ⟨fun _ hset => by simp [hdv] at hset, fun _ _ => .inl hn⟩
  · exact ⟨fun _ hset => by simp at hset, fun _ _ => .inr ⟨w, hn, .inl rfl⟩⟩
  · exact ⟨fun _ hset => by simp [hdv] at hset, fun _ _ => .inr ⟨_, hn, .inr ⟨hp, rfl⟩⟩⟩
  · exact ⟨fun _ _ => ⟨hn, herr, hp⟩, fun _ hclear => by simp [hdv] at hclear⟩
  · exact ⟨fun hs ht => by simp [hdv, hs] at ht, fun hs ht => by simp [hdv, hs] at ht⟩

/-- Settles O38: the invariant lets only a well-formed command be pending, and each has a perform. -/
theorem theCoreNeverFails : Obligations.TheCoreNeverFails := fun _ => exists_step

/-! ### The host's access by address -/

/-- A host's access always answers (R45, R47, R48). -/
theorem exists_takeTurn_access (acc : BusAccess) (idx : BitVec 4) (s : State) :
    ∃ t, takeTurn (acc.event idx) s = .next t := by
  cases acc with
  | write a v => exact ⟨_, rfl⟩
  | read a => exact ⟨_, rfl⟩

/-- An access at a register's address is the host's turn of the core that the register is of (R136). -/
theorem busAccess_of_address {cores : List State} {k : Nat} {idx : BitVec 4} {acc : BusAccess} (hk : k < cores.length)
    (ha : acc.address = hostAddress k idx) : busAccess acc cores = some (onCore k (takeTurn (acc.event idx)) cores) := by
  rw [busAccess, selectRegister_eq_some_iff.mpr ⟨hk, ha⟩]

/-- An access at no register's address reaches no core (R45). -/
theorem busAccess_of_no_address {cores : List State} {acc : BusAccess}
    (ha : ∀ k idx, k < cores.length → acc.address ≠ hostAddress k idx) : busAccess acc cores = none := by
  rw [busAccess]
  cases hsel : selectRegister cores.length acc.address with
  | none => rfl
  | some reg =>
    obtain ⟨hk, heq⟩ := selectRegister_eq_some_iff.mp hsel
    exact absurd heq (ha reg.1 reg.2 hk)

/-- Settles O50: the address selects its core, whose turn is the step with the access put ahead of its schedule. -/
theorem hostAddressSelectsItsCore : Obligations.HostAddressSelectsItsCore := by
  refine ⟨fun cores k idx s acc hk ha => ?_, fun cores acc => busAccess_of_no_address⟩
  have hlt : k < cores.length := (List.getElem?_eq_some_iff.mp hk).1
  obtain ⟨t, ht⟩ := exists_takeTurn_access acc idx s
  refine ⟨t, cores.set k t, (step_of_schedule rfl).trans ht, ?_, List.getElem?_set_self hlt, List.length_set,
    fun j hj => List.getElem?_set_ne hj.symm⟩
  rw [busAccess_of_address hlt ha, onCore_next hk ht]

end Sys2Proof.Machine
end

section
/-! PROOFS. Reset and hazards (70_reset_and_hazards.md R140 to R142, R146): what a perform reads of DATA_IN, what the reset step
writes, and what the host finds after it. -/

namespace Sys2Proof.Machine

/-- Appending bytes neither reads nor writes DATA_IN. -/
theorem foldl_appendByte_with_dataIn (bs : List Byte) (s : State) (v : Word) :
    bs.foldl appendByte { s with dataIn := v } = { bs.foldl appendByte s with dataIn := v } := by
  simpa using foldl_appendByte_with bs s s.pending v s.schedule s.readLog

/-- The perform of the pending command neither reads nor writes DATA_IN: its operand is the one latched with it (R68, R76). -/
theorem exec_with_dataIn {i : Instr} {s t : State} {p : Pending} (hp : s.pending = some p) (h : exec i s = .next t)
    (v : Word) : exec i { s with dataIn := v } = .next { t with dataIn := v } := by
  have hoperand : State.operand { s with dataIn := v } = s.operand :=
    (operand_of_pending { s with dataIn := v } hp).trans (operand_of_pending s hp).symm
  rcases exec_cases h with ⟨rfl, rfl⟩ | ⟨rfl, rfl⟩ | ⟨nb, rfl, hnb, herr, rfl⟩ | ⟨nb, rfl, hnb, herr, rfl⟩ |
    ⟨rfl, herr, rfl⟩ | ⟨rfl, herr, rfl⟩
  · rfl
  · simp only [exec, execInit, retire]
  · exact exec_of_err (update_wf hnb) (by simp) herr
  · rw [exec_update (s := { s with dataIn := v }) hnb herr, hoperand, foldl_appendByte_with_dataIn]
    rfl
  · exact exec_of_err rfl (by simp) herr
  · exact exec_finalize herr

/-- Settles O28: the write leaves PENDING, and the perform does not see DATA_IN. -/
theorem rewritingDataInLeavesThePendingCommand : Obligations.RewritingDataInLeavesThePendingCommand := by
  intro s t p v hp h
  rw [regWrite_one]
  exact ⟨hp, exec_with_dataIn hp h v⟩

/-- Settles O34: the step is `resetCore`, which keeps nothing but the model's own two fields. -/
theorem resetWritesEveryElement : Obligations.ResetWritesEveryElement :=
  fun _ _ h => ⟨_, step_of_schedule h, rfl⟩

/-- After reset every register of the window reads 0 (R42, R142). -/
theorem readReg_reset (r : Reg) : readReg State.reset r = 0 := by
  cases r with
  | cmd | dataIn | totalLo | totalHi | reserved => rfl
  | status => decide
  | digest i => exact Vector.getElem_replicate i.isLt

/-- Settles O35: the reset state holds the empty message, so a FINALIZE leaves the digest of that. -/
theorem resetStateIsStartOfMessage : Obligations.ResetStateIsStartOfMessage := by
  refine ⟨rfl, fun idx => readReg_reset (Reg.ofIndex idx), ?_⟩
  have hempty : Holds [] none State.reset :=
    ⟨resetMeetsTheInvariant.buf_wf, resetTracksTheEmptyMessage, rfl, rfl⟩
  obtain ⟨t, hrun, hdigest⟩ := runSteps_delivery_digest (cs := []) hempty (by simp)
  exact ⟨t, hrun, hdigest.digest, hdigest.valid, hdigest.no_error⟩

end Sys2Proof.Machine
end

section
/-! PROOFS. What each part of the machine reaches (spec/opcode_table.json; 10_state.md R20, R24; 20_memory.md R48, R57;
70_reset_and_hazards.md R147): the opcode table's rows, the two commands that write H and TOTAL, the host's accesses, and the
placing of a command word. -/

namespace Sys2Proof.Machine

/-! ### The opcode table -/

/-- A legal word matches its command's row: UPDATE's mask leaves out NB alone (R64 to R67). -/
theorem encode_and_tableMask (i : Instr) : encode i &&& i.tableMask = i.tableMatch := by
  cases i with
  | update nb => revert nb; decide
  | nop | init | finalize => rfl

/-- Every row's mask covers the OP field, so a word that matches a row has the row's OP. -/
theorem opField_of_matches_row {w : Word} {i : Instr} (h : w &&& i.tableMask = i.tableMatch) : opField w = i.op := by
  have hmask : opField i.tableMask = BitVec.allOnes 4 := by cases i <;> simp only [Instr.tableMask] <;> decide
  have hmatch : opField i.tableMatch = i.op := by cases i <;> rfl
  calc opField w
    _ = opField w &&& opField i.tableMask := by rw [hmask, BitVec.and_allOnes]
    _ = opField (w &&& i.tableMask) := BitVec.extractLsb'_and.symm
    _ = i.op := by rw [h, hmatch]

/-- Settles O5: a decoded word is its command's encoding, and two rows that one word matches have its OP. -/
theorem tableRowsMatchAndDoNotOverlap : Obligations.TableRowsMatchAndDoNotOverlap := by
  refine ⟨fun w i hd => ?_, fun w i j hi hj => (opField_of_matches_row hi).symm.trans (opField_of_matches_row hj)⟩
  obtain ⟨-, rfl⟩ := (decodesExactlyItsEncodings w i).mp hd
  exact encode_and_tableMask i

/-! ### The writers of H and TOTAL -/

/-- A byte raises TOTAL by 64 exactly when it is the block's last (R82). -/
theorem appendByte_total (s : State) (b : Byte) :
    (appendByte s b).total = s.total + BitVec.ofNat 64 (64 * ((s.bufsize.toNat + 1) / 64)) := by
  have hsize := s.bufsize.isLt
  unfold appendByte
  split
  case isTrue hfull => rw [hfull]; rfl
  case isFalse hfits =>
    rw [Nat.div_eq_of_lt (by omega)]
    exact (BitVec.add_zero _).symm

/-- TOTAL counts 64 bytes for each block that appended bytes complete (R24, R82). -/
theorem foldl_appendByte_total (bs : List Byte) (s : State) :
    (bs.foldl appendByte s).total = s.total + BitVec.ofNat 64 (64 * ((s.bufsize.toNat + bs.length) / 64)) := by
  induction bs generalizing s with
  | nil =>
    rw [List.length_nil, Nat.add_zero, Nat.div_eq_of_lt s.bufsize.isLt]
    exact (BitVec.add_zero _).symm
  | cons b bs ih =>
    rw [List.foldl_cons, ih, appendByte_total, appendByte_bufsize, List.length_cons, BitVec.add_assoc,
      ← BitVec.ofNat_add]
    congr 2
    omega

/-- What a perform does to H and TOTAL: INIT starts them over, an UPDATE that completes a block raises TOTAL by 64, and every
other perform keeps both (R20, R24). -/
theorem exec_chaining_cases {i : Instr} {s t : State} (h : exec i s = .next t) :
    (t.h = s.h ∧ t.total = s.total) ∨ (i = .init ∧ t.h = iv ∧ t.total = 0) ∨
    (∃ nb, i = .update nb ∧ s.err = false ∧ 64 ≤ s.bufsize.toNat + nb.toNat ∧ t.total = s.total + 64) := by
  rcases exec_cases h with ⟨-, rfl⟩ | ⟨hi, rfl⟩ | ⟨nb, -, -, -, rfl⟩ | ⟨nb, hi, hnb, herr, rfl⟩ | ⟨-, -, rfl⟩ |
    ⟨-, -, rfl⟩
  · exact .inl ⟨rfl, rfl⟩
  · exact .inr (.inl ⟨hi, rfl, rfl⟩)
  · exact .inl ⟨rfl, rfl⟩
  · have hlen := length_lanes hnb s.operand
    have hsize := s.bufsize.isLt
    by_cases hfull : 64 ≤ s.bufsize.toNat + nb.toNat
    · refine .inr (.inr ⟨nb, hi, herr, hfull, ?_⟩)
      have hone : (s.bufsize.toNat + nb.toNat) / 64 = 1 := by omega
      rw [retire_total, foldl_appendByte_total, hlen, hone]
      rfl
    · rw [foldl_appendByte_of_fits _ _ (by omega)]
      exact .inl ⟨rfl, rfl⟩
  · exact .inl ⟨rfl, rfl⟩
  · exact .inl ⟨rfl, rfl⟩

/-- Settles O18, one case a turn: a host's access leaves H and TOTAL, a reset starts them over, a perform is
`exec_chaining_cases`. -/
theorem chainingStateHasThreeWriters : Obligations.ChainingStateHasThreeWriters := by
  intro s t h
  rcases step_cases h with ⟨idx, v, -, rfl⟩ | ⟨idx, -, rfl⟩ | ⟨hn, rfl⟩ | ⟨-, -, rfl⟩ | ⟨⟨i, d⟩, hn, hp, he⟩
  · obtain ⟨hh, -, -, htotal, -⟩ := regWrite_keeps_computation idx v s.dropTurn
    exact .inl ⟨hh, htotal⟩
  · exact .inl ⟨rfl, rfl⟩
  · exact .inr (.inl ⟨rfl, rfl, .inl hn⟩)
  · exact .inl ⟨rfl, rfl⟩
  · rcases exec_chaining_cases he with hkeep | ⟨rfl, hh, htotal⟩ | ⟨nb, rfl, herr, hfull, htotal⟩
    · exact .inl hkeep
    · exact .inr (.inl ⟨hh, htotal, .inr ⟨hn, d, hp⟩⟩)
    · exact .inr (.inr ⟨htotal, hn, herr, nb, d, hp, hfull⟩)

/-! ### A host's access -/

/-- Every register but DATA_IN and STATUS reads TOTAL, DIGEST or 0 (R47). -/
theorem regRead_congr {idx : BitVec 4} {s t : State} (h1 : idx ≠ 1) (h2 : idx ≠ 2) (htotal : t.total = s.total)
    (hdigest : t.digest = s.digest) : regRead idx t = regRead idx s := by
  have hdataIn : ∀ idx, Reg.ofIndex idx = .dataIn → idx = 1 := by decide
  have hstatus : ∀ idx, Reg.ofIndex idx = .status → idx = 2 := by decide
  unfold regRead
  cases hr : Reg.ofIndex idx with
  | dataIn => exact absurd (hdataIn idx hr) h1
  | status => exact absurd (hstatus idx hr) h2
  | cmd | reserved => rfl
  | totalLo | totalHi => rw [readReg, readReg, htotal]
  | digest i => rw [readReg, readReg, hdigest]

/-- Settles O19: of the turns a step can be, a write and a read are left, and neither touches what the other registers read. -/
theorem hostAccessLeavesTheComputation : Obligations.HostAccessLeavesTheComputation := by
  intro s t h hperform hreset
  have hkeeps : t.h = s.h ∧ t.buf = s.buf ∧ t.bufsize = s.bufsize ∧ t.total = s.total ∧ t.digest = s.digest := by
    rcases step_cases h with ⟨idx, v, -, rfl⟩ | ⟨idx, -, rfl⟩ | ⟨hn, -⟩ | ⟨hn, -⟩ | ⟨p, hn, -⟩
    · exact regWrite_keeps_computation idx v s.dropTurn
    · exact ⟨rfl, rfl, rfl, rfl, rfl⟩
    · exact absurd hn hreset
    · exact absurd hn hperform
    · exact absurd hn hperform
  obtain ⟨hh, hbuf, hsize, htotal, hdigest⟩ := hkeeps
  exact ⟨hh, hbuf, hsize, htotal, hdigest, fun _ idx h1 h2 => regRead_congr h1 h2 htotal hdigest⟩

/-! ### A placed word, and INIT -/

/-- A word that decodes to a command is placed as an accepted CMD write leaves it, with the core to move next (log entry 7). -/
theorem withFetchWord_of_decode {nbits w : Nat} {i : Instr} (hd : decodeTableWord nbits w = some i) (s : State) :
    s.withFetchWord nbits w = { accept i s with schedule := [] } := by
  rw [State.withFetchWord, placeCommand, hd]

/-- Settles O13: with an empty schedule the core moves, and it performs the command that stands pending. -/
theorem placedWordRunsNext : Obligations.PlacedWordRunsNext := by
  intro s nbits w i hd
  have hp : (s.withFetchWord nbits w).pending = some ⟨i, s.dataIn⟩ := by
    rw [withFetchWord_of_decode hd]
    exact accept_pending s i
  have hnone : (s.withFetchWord nbits w).schedule = [] := by rw [withFetchWord_of_decode hd]
  obtain ⟨-, -, hruns, -, -⟩ := stepRunsTheIssuedCommand
  exact ⟨hruns _ i s.dataIn hp hnone, hp⟩

/-- Settles O21, by the perform of INIT from a canonical BUF. -/
theorem initPerformStartsOver : Obligations.InitPerformStartsOver := fun _ => exec_init

end Sys2Proof.Machine
end
